-- ==== Sys2Proof/Word.lean ====
section
/-! DEFINITION. The word types of the engine and the ring value (10_state.md rules R21, R35, R39; 00_scope.md
rules R7, R8). -/

namespace Sys2Proof

/-- A host bus word, and the 32-bit command word (R8, R12, R90). -/
abbrev Word := BitVec 32

/-- A byte of the message buffer (R39). -/
abbrev Byte := BitVec 8

/-- A stored coefficient: 12 bits, read in two's complement (R8, R21). -/
abbrev Coeff := BitVec 12

/-- A byte offset in the 4 KiB register block (R8, R62). -/
abbrev Offset := BitVec 12

/-- A code offered on the entropy port, `ent_data[1:0]` (R60, R170). -/
abbrev Code := BitVec 2

/-- A ring value: exactly 256 coefficients; index `k` is the coefficient of `x^k` (R11, R21). -/
abbrev RingVec := Vector Coeff 256

end Sys2Proof
end

