-- ==== Sys2Proof/Config.lean ====
section
/-! DEFINITION. What this hardware fixes (00_scope.md rules R7, R8), and the one free value of the model: what the
never observable temporaries hold (10_state.md rule R45, 93_implementation_defined.md U21). -/

namespace Sys2Proof.Config

/-- `Q`, the modulus of `reduce` (R7, R141). -/
abbrev span : Int := 3329

/-- `H`, the largest canonical magnitude (R7). -/
abbrev maxMagnitude : Int := 1664

/-- The symbol of message bit 1; the symbol of bit 0 is 0 (R7, R200). -/
abbrev symbolOne : Int := -1664

/-- `half = floor(-1664/2) = -832` (R7, R181). Lean's `/` on `Int` rounds down for a positive divisor. -/
abbrev half : Int := symbolOne / 2

/-- `MSGMAX`, the message capacity in bytes: `floor(256/8)` (R7). -/
abbrev msgMax : Nat := 256 / 8

/-- The identification value that ID reads (R8, R31). -/
abbrev idValue : Word := 0x54534B01

/-- FREE VALUE. The contents of the internal accumulators and temporaries, for each generation of them (R45, U21):
nothing constrains it, and nothing in the machine reads it. -/
opaque temporaryContents : Nat → List Int

end Sys2Proof.Config
end

