-- ==== Sys2Proof/Syntax.lean ====
section
/-! DEFINITION. The sixteen commands of TSK-CMD version 1 (30_encoding.md rules R93 to R95, R103) and the register
role names (10_state.md rule R23, 30_encoding.md rule R104). -/

namespace Sys2Proof

/-- The number of a ring register; all 32 values are legal (R93). -/
abbrev RegNum := Fin 32

/-- The commands: one constructor for each row of the opcode map (R95), operands in the order of R103. An immediate
is the natural number that IMM16 zero-extends to (R94); `Instr.wellFormed` bounds it. -/
inductive Instr where
  | nop
  | radd (rd rs1 rs2 : RegNum)
  | rsub (rd rs1 rs2 : RegNum)
  | rmul (rd rs1 rs2 : RegNum)
  | rrot (rd rs1 : RegNum) (imm : Nat)
  | rgen (rd : RegNum)
  | sred
  | menc (rd : RegNum) (len : Nat)
  | mthr (rd rs1 : RegNum)
  | mdec (rs1 : RegNum)
  | kgen
  | pkder
  | sgen
  | spkder
  | enc
  | dec
deriving DecidableEq, Repr

namespace Role

/-- Receiver signal secret, rows 0 and 1 (R23). -/
abbrev s0 : RegNum := 0
abbrev s1 : RegNum := 1
/-- Receiver noise secret, rows 0 and 1 (R23). -/
abbrev e0 : RegNum := 2
abbrev e1 : RegNum := 3
/-- The public table, rows 0 to 3: the matrix `[[t0, t1], [t2, t3]]` (R23, R24). -/
abbrev t0 : RegNum := 4
abbrev t1 : RegNum := 5
abbrev t2 : RegNum := 6
abbrev t3 : RegNum := 7
/-- Receiver public key, rings 0 and 1 (R23). -/
abbrev p0 : RegNum := 8
abbrev p1 : RegNum := 9
/-- Sender signal secret, rows 0 and 1 (R23). -/
abbrev ss0 : RegNum := 10
abbrev ss1 : RegNum := 11
/-- Sender noise, rows 0 and 1 (R23). -/
abbrev se0 : RegNum := 12
abbrev se1 : RegNum := 13
/-- Sender public key, rings 0 and 1 (R23). -/
abbrev u0 : RegNum := 14
abbrev u1 : RegNum := 15
/-- Message ring, ciphertext ring, recovered message ring (R23). -/
abbrev m : RegNum := 16
abbrev c : RegNum := 17
abbrev w : RegNum := 18

end Role

end Sys2Proof
end

