-- ==== Sys2Proof/WellFormed.lean ====
section
/-! DEFINITION. Which commands have an encoding: an immediate is in 0..65535 (30_encoding.md rules R94, R101).
Register numbers are in 0..31 by their type (R93). -/

namespace Sys2Proof

/-- An immediate that IMM16 can hold; the assembler refuses any other (R94, R101). -/
def immediateFits (imm : Nat) : Bool := decide (imm < 65536)

/-- The command has an encoding. A MENC length above 32 has one: the word decodes and is refused at submission
(R94, R120). -/
def Instr.wellFormed : Instr → Bool
  | .nop => true
  | .radd _ _ _ => true
  | .rsub _ _ _ => true
  | .rmul _ _ _ => true
  | .rrot _ _ imm => immediateFits imm
  | .rgen _ => true
  | .sred => true
  | .menc _ len => immediateFits len
  | .mthr _ _ => true
  | .mdec _ => true
  | .kgen => true
  | .pkder => true
  | .sgen => true
  | .spkder => true
  | .enc => true
  | .dec => true

end Sys2Proof
end

