-- ==== Sys2Proof/Decode.lean ====
section
/-! DEFINITION. Decoding a command word (30_encoding.md rules R91 to R97) and, after it, the encoder (R91, R92, R103).
Every command is one 32-bit word (R90): there is no instruction memory and no byte order of a command (R67). -/

namespace Sys2Proof

/-- Why a word is illegal (R97): (a) its OPC is not in the map; (b) its OPC is, and a reserved field is not 0. -/
inductive Illegal where
  | opcode
  | reservedField
deriving DecidableEq, Repr

/-- `OPC = w[31:26]` (R93). -/
def fieldOpc (w : Word) : BitVec 6 := w.extractLsb' 26 6

/-- `RD = w[25:21]` (R93). -/
def fieldRd (w : Word) : RegNum := (w.extractLsb' 21 5).toFin

/-- `RS1 = w[20:16]` (R93). -/
def fieldRs1 (w : Word) : RegNum := (w.extractLsb' 16 5).toFin

/-- `RS2 = w[15:11]` (R93). -/
def fieldRs2 (w : Word) : RegNum := (w.extractLsb' 11 5).toFin

/-- `imm = zext_32(w[15:0])` (R94). -/
def fieldImm (w : Word) : Nat := (w.extractLsb' 0 16).toNat

/-- One row of the opcode map: a word selects it iff `w & mask == match` (R95). -/
structure Row where
  pattern : Word
  mask    : Word
  build   : Word → Instr

/-- The sixteen rows of R95, match and mask as that rule's second table prints them. -/
def rows : List Row := [
  ⟨0x00000000, 0xFFFFFFFF, fun _ => .nop⟩,
  ⟨0x04000000, 0xFC0007FF, fun w => .radd (fieldRd w) (fieldRs1 w) (fieldRs2 w)⟩,
  ⟨0x08000000, 0xFC0007FF, fun w => .rsub (fieldRd w) (fieldRs1 w) (fieldRs2 w)⟩,
  ⟨0x0C000000, 0xFC0007FF, fun w => .rmul (fieldRd w) (fieldRs1 w) (fieldRs2 w)⟩,
  ⟨0x10000000, 0xFC000000, fun w => .rrot (fieldRd w) (fieldRs1 w) (fieldImm w)⟩,
  ⟨0x14000000, 0xFC1FFFFF, fun w => .rgen (fieldRd w)⟩,
  ⟨0x18000000, 0xFFFFFFFF, fun _ => .sred⟩,
  ⟨0x1C000000, 0xFC1F0000, fun w => .menc (fieldRd w) (fieldImm w)⟩,
  ⟨0x20000000, 0xFC00FFFF, fun w => .mthr (fieldRd w) (fieldRs1 w)⟩,
  ⟨0x24000000, 0xFFE0FFFF, fun w => .mdec (fieldRs1 w)⟩,
  ⟨0x40000000, 0xFFFFFFFF, fun _ => .kgen⟩,
  ⟨0x44000000, 0xFFFFFFFF, fun _ => .pkder⟩,
  ⟨0x48000000, 0xFFFFFFFF, fun _ => .sgen⟩,
  ⟨0x4C000000, 0xFFFFFFFF, fun _ => .spkder⟩,
  ⟨0x50000000, 0xFFFFFFFF, fun _ => .enc⟩,
  ⟨0x54000000, 0xFFFFFFFF, fun _ => .dec⟩]

/-- The row selects the word: `(w & row.mask) == row.match` (R96). -/
def Row.selects (r : Row) (w : Word) : Bool := w &&& r.mask == r.pattern

/-- Some row of the map has this OPC (R97 (a)). -/
def opcodeMapped (opc : BitVec 6) : Bool := rows.any fun r => fieldOpc r.pattern == opc

/-- R96: the first row that selects the word gives the command; else the word is ILLEGAL, with the reason of R97. -/
def decode (w : Word) : Except Illegal Instr :=
  match rows.find? (fun r => r.selects w) with
  | some r => .ok (r.build w)
  | none => .error (if opcodeMapped (fieldOpc w) then .reservedField else .opcode)

/-! ### The encoder -/

/-- R91: `{OPC, RD, RS1, RS2, Z11}`, with Z11 = 0. -/
def rFormat (opc : BitVec 6) (rd rs1 rs2 : RegNum) : Word :=
  opc ++ (BitVec.ofFin rd : BitVec 5) ++ (BitVec.ofFin rs1 : BitVec 5) ++ (BitVec.ofFin rs2 : BitVec 5) ++ (0 : BitVec 11)

/-- R92: `{OPC, RD, RS1, IMM16}`. -/
def iFormat (opc : BitVec 6) (rd rs1 : RegNum) (imm : Nat) : Word :=
  opc ++ (BitVec.ofFin rd : BitVec 5) ++ (BitVec.ofFin rs1 : BitVec 5) ++ BitVec.ofNat 16 imm

/-- The word of a command (R103). A field the command does not use is 0 (R93). -/
def encode : Instr → Word
  | .nop => rFormat 0x00 0 0 0
  | .radd rd rs1 rs2 => rFormat 0x01 rd rs1 rs2
  | .rsub rd rs1 rs2 => rFormat 0x02 rd rs1 rs2
  | .rmul rd rs1 rs2 => rFormat 0x03 rd rs1 rs2
  | .rrot rd rs1 imm => iFormat 0x04 rd rs1 imm
  | .rgen rd => rFormat 0x05 rd 0 0
  | .sred => rFormat 0x06 0 0 0
  | .menc rd len => iFormat 0x07 rd 0 len
  | .mthr rd rs1 => rFormat 0x08 rd rs1 0
  | .mdec rs1 => rFormat 0x09 0 rs1 0
  | .kgen => rFormat 0x10 0 0 0
  | .pkder => rFormat 0x11 0 0 0
  | .sgen => rFormat 0x12 0 0 0
  | .spkder => rFormat 0x13 0 0 0
  | .enc => rFormat 0x14 0 0 0
  | .dec => rFormat 0x15 0 0 0

/-- The word whose low `nbits` bits are `w`'s and whose other bits are 0. -/
def tableWord (nbits w : Nat) : Word := BitVec.ofNat 32 (w % 2 ^ nbits)

/-- What `decode` reads from the command word whose bits are `w`, numbered as the opcode table numbers them. -/
def decodeTableWord (nbits w : Nat) : Option Instr := (decode (tableWord nbits w)).toOption

end Sys2Proof
end

