-- ==== Sys2Proof/Machine/State.lean ====
section
/-! DEFINITION. All the state of the engine (10_state.md, 70_reset_and_hazards.md rule R250), the inputs its three
agents act through (R20, R60), the reasons a step can stop, and the state after reset. -/

namespace Sys2Proof.Machine

/-- `phase`; STATUS.BUSY is 1 exactly when it is `busy` (R45), so the bit is stored here only. -/
inductive Phase where
  | idle
  | busy
deriving DecidableEq, Repr

/-- The error codes of R221. Codes 6 to 15 are never produced (U17), so none stands for them. -/
inductive ErrCode where
  /-- 0, E_NONE. -/
  | none
  /-- 1, E_ILLEGAL: a submitted word decodes to ILLEGAL. -/
  | illegal
  /-- 2, E_TOOLONG: MENC with a length above 32. -/
  | tooLong
  /-- 3, E_RANGE: a coefficient-window write outside [-1664, 1664]. -/
  | range
  /-- 4, E_BUSY: a CMD write or a data-group access while BUSY. -/
  | busy
  /-- 5, E_SHAPE: assigned, never raised (R221, D23). -/
  | shape
deriving DecidableEq, Repr

/-- A draw: a value of the noise and secret alphabet {-1, 0, 1} (R7, R170). -/
inductive Draw where
  | zero
  | plusOne
  | minusOne
deriving DecidableEq, Repr

/-- A host transaction, always 32 bits wide (R12, R62, R63). -/
inductive Transaction where
  /-- `MemRead(off, 4)` -/
  | read (off : Offset)
  /-- `MemWrite(off, 4, v)` -/
  | write (off : Offset) (v : Word)
deriving DecidableEq, Repr

/-- What happens in one step: every execution is an interleaving of host transactions and engine steps, each atomic
(R78), and of changes of the reset input (R250). -/
inductive Turn where
  /-- The host performs one transaction (R62). -/
  | host (t : Transaction)
  /-- The engine takes a step if one is enabled: a completion (R123) or the acceptance of an offered code (R170). -/
  | engine
  /-- The reset input takes this level (R250). -/
  | rst (level : Bool)
deriving DecidableEq, Repr

/-- The machine: the engine's state and, below it, its inputs and its last answer on the host bus. -/
structure State where
  /-- `RR0` to `RR31` (R21). -/
  rr        : Vector RingVec 32
  /-- CTRL bit 0 (R32). -/
  fulladd   : Bool
  /-- CTRL bit 1 (R32). -/
  irqen     : Bool
  /-- `phase` and STATUS bit 0, BUSY (R33, R45). -/
  phase     : Phase
  /-- STATUS bit 1 (R33). -/
  done      : Bool
  /-- STATUS bit 2 (R33). -/
  err       : Bool
  /-- STATUS bits 11:8 (R33). -/
  errcode   : ErrCode
  /-- SCALAR_IN (R35). -/
  scalarIn  : Word
  /-- SCALAR_OUT (R36). -/
  scalarOut : Word
  /-- WIN_SEL bits 4:0, SEL (R37). -/
  winSel    : RegNum
  /-- DEC_LEN bits 5:0, LEN (R38). -/
  decLen    : BitVec 6
  /-- The message buffer `MSG[0..31]`, which MSG0 to MSG7 show (R39). -/
  msg       : Vector Byte 32
  /-- `cmd`: the accepted command word, or none latched (R45). -/
  cmd       : Option Word
  /-- `fa`: CTRL.FULLADD as sampled at acceptance (R45). -/
  fa        : Bool
  /-- `drawbuf`: the draws accepted so far for the command in flight, in order (R45). -/
  drawbuf   : List Draw
  /-- `need`: how many draws the command in flight still needs (R45). -/
  need      : Nat
  /-- Which generation of unspecified contents the internal temporaries hold (R45, U21): `Config.temporaryContents`
  gives the contents. The counter is the model's own. -/
  tempGen   : Nat
  /-- The level of the reset input (R250). -/
  rst       : Bool
  /-- The codes that the entropy source has still to offer, the next one first: `ENT_STREAM` (R170, D18). -/
  entropy   : List Code
  /-- What happens next, the next turn first; when nothing is listed the engine takes the turn (R78, R126). -/
  turns     : List Turn
  /-- The word that the latest read transaction returned (R62), if there has been one. -/
  readData  : Option Word
deriving DecidableEq, Repr

/-- Why the machine stops with a fault. -/
inductive Fault where
  /-- Raised by the engine's turn when `phase` is BUSY and no command is latched. No run reaches such a state (R121
  latches a command whenever it sets BUSY), and the spec says nothing of it. SAFE: the machine stops. -/
  | noCommandLatched
deriving DecidableEq, Repr

/-- Why a step has no meaning. -/
inductive Refusal where
  /-- Raised only by an arm of `exec` whose instruction has no meaning in the model; there is no such arm. SAFE. -/
  | notModelled (mnemonic : String)
deriving DecidableEq, Repr

/-- The machine right after reset (R50, R250, R252): every coefficient and register 0, idle, nothing latched, no draw;
`rst` released. No input is pending and no read has been made. -/
def State.reset : State where
  rr        := Vector.replicate 32 (Vector.replicate 256 0)
  fulladd   := false
  irqen     := false
  phase     := .idle
  done      := false
  err       := false
  errcode   := .none
  scalarIn  := 0
  scalarOut := 0
  winSel    := 0
  decLen    := 0
  msg       := Vector.replicate 32 0
  cmd       := none
  fa        := false
  drawbuf   := []
  need      := 0
  tempGen   := 0
  rst       := false
  entropy   := []
  turns     := []
  readData  := none

end Sys2Proof.Machine
end

