-- ==== Sys2Proof/Machine/Operands.lean ====
section
/-! DEFINITION. Every operand form: ring registers and their coefficients, draws, message bytes and words, SCALAR_IN,
the shift and length immediates, and the register that a host offset addresses. -/

namespace Sys2Proof

/-- Coefficient `k` of a ring, read in two's complement (R21). There is no coefficient at `k ≥ 256`; 0 stands there. -/
def RingVec.coeff (v : RingVec) (k : Nat) : Int := if h : k < 256 then v[k].toInt else 0

/-- The ring whose coefficient `k` is the 12-bit value of `f k`; where a rule stores `f k` it says why it fits (R9). -/
def RingVec.tabulate (f : Nat → Int) : RingVec :=
  ⟨⟨(List.range 256).map fun k => BitVec.ofInt 12 (f k)⟩, by simp⟩

namespace Machine

/-- The value of a draw (R170). -/
def Draw.toInt : Draw → Int
  | .zero => 0
  | .plusOne => 1
  | .minusOne => -1

/-- The number of an error code in STATUS.ERRCODE (R221). -/
def ErrCode.toBits : ErrCode → BitVec 4
  | .none => 0
  | .illegal => 1
  | .tooLong => 2
  | .range => 3
  | .busy => 4
  | .shape => 5

/-- `RR[r]` (R11, R21). -/
def State.ring (s : State) (r : RegNum) : RingVec := s.rr[r]

/-- `RR[r] <- v`: all 256 coefficients at once (R11). No register is hardwired (R23). -/
def State.setRing (s : State) (r : RegNum) (v : RingVec) : State := { s with rr := s.rr.set r v }

/-- `RR[r][k] <- v`: one coefficient (R11). -/
def State.setCoeff (s : State) (r : RegNum) (k : Fin 256) (v : Coeff) : State :=
  s.setRing r ((s.ring r).set k.val v k.isLt)

/-- SCALAR_IN as SRED reads it: `sext_32` (R35). -/
def State.scalarValue (s : State) : Int := s.scalarIn.toInt

/-- `MSG[p]` (R39). There is no byte at `p ≥ 32`; 0 stands there. -/
def State.msgByte (s : State) (p : Nat) : Byte := if h : p < 32 then s.msg[p] else 0

/-- `{MSG[4w+3], MSG[4w+2], MSG[4w+1], MSG[4w]}`: what MSGw reads as (R39, R67, R73). -/
def State.msgWord (s : State) (w : Fin 8) : Word :=
  s.msgByte (4 * w + 3) ++ s.msgByte (4 * w + 2) ++ s.msgByte (4 * w + 1) ++ s.msgByte (4 * w)

/-- The message buffer whose byte `p` is `f p`. -/
def messageOf (f : Nat → Byte) : Vector Byte 32 := ⟨⟨(List.range 32).map f⟩, by simp⟩

/-- `MSG[4w+b] <- v[8b+7:8b]` for b in 0..3 (R73). -/
def State.setMsgWord (s : State) (w : Fin 8) (v : Word) : State :=
  { s with msg := messageOf fun p =>
      if p / 4 = w.val then v.extractLsb' (8 * (p % 4)) 8 else s.msgByte p }

/-- MSG takes the given bytes, 0x00 beyond them, and DEC_LEN their number (R38, R203). -/
def State.setMessage (s : State) (out : List Byte) : State :=
  { s with
    msg := messageOf fun p => out.getD p 0x00
    decLen := BitVec.ofNat 6 out.length }

/-- Draw `n` of the command in flight, counting from 0: `drawbuf[n]` (R171). A completion is enabled only when every
draw it reads is there (R123); 0 stands for a draw that is not. -/
def State.draw (s : State) (n : Nat) : Int := (s.drawbuf.getD n .zero).toInt

/-- `k = shift mod 256`, all of RROT's immediate that matters (R94, R149). -/
def shiftAmount (imm : Nat) : Nat := imm % 256

/-- MENC's length is refused at submission (R120, R201). -/
def lengthTooLong (len : Nat) : Bool := decide (len > Config.msgMax)

/-- The register that an offset addresses (R30, R64). -/
inductive HostReg where
  | id
  | ctrl
  | status
  | cmd
  | scalarIn
  | scalarOut
  | winSel
  | decLen
  | msg (w : Fin 8)
  | win (i : Fin 256)
  | reserved
deriving DecidableEq, Repr

/-- Offset decode by `off[11:2]`; `off[1:0]` is ignored (R64, R68). -/
def hostReg (off : Offset) : HostReg :=
  let k := off.toNat / 4
  if k = 0 then .id
  else if k = 1 then .ctrl
  else if k = 2 then .status
  else if k = 3 then .cmd
  else if k = 4 then .scalarIn
  else if k = 5 then .scalarOut
  else if k = 6 then .winSel
  else if k = 7 then .decLen
  else if h : 8 ≤ k ∧ k < 16 then .msg ⟨k - 8, by omega⟩
  else if h : 0x200 ≤ k ∧ k < 0x300 then .win ⟨k - 0x200, by omega⟩
  else .reserved

/-- The data group, locked while BUSY (R30, R74). -/
def HostReg.inDataGroup : HostReg → Bool
  | .id => false
  | .ctrl => false
  | .status => false
  | .cmd => false
  | .scalarIn => true
  | .scalarOut => true
  | .winSel => true
  | .decLen => true
  | .msg _ => true
  | .win _ => true
  | .reserved => false

end Machine

end Sys2Proof
end

