-- ==== Sys2Proof/Machine/Flags.lean ====
section
/-! DEFINITION. The flags and what is computed from them: the STATUS and CTRL words, the acknowledging write, the
`irq` and `ent_ready` outputs (10_state.md rules R32, R33, R40; 60_exceptions.md rule R226; 42_protocol.md R170).
No command sets a flag by its arithmetic (R40). -/

namespace Sys2Proof.Machine

/-- STATUS.BUSY (R33, R45). -/
def State.isBusy (s : State) : Bool := decide (s.phase = .busy)

/-- The word STATUS reads as; reserved bits 7:3 and 31:12 read 0 (R33). -/
def State.statusWord (s : State) : Word :=
  (0 : BitVec 20) ++ s.errcode.toBits ++ (0 : BitVec 5) ++ BitVec.ofBool s.err ++ BitVec.ofBool s.done ++
    BitVec.ofBool s.isBusy

/-- The word CTRL reads as; reserved bits 31:2 read 0 (R32). -/
def State.ctrlWord (s : State) : Word :=
  (0 : BitVec 30) ++ BitVec.ofBool s.irqen ++ BitVec.ofBool s.fulladd

/-- A CTRL write keeps bits 0 and 1, in every phase; the latched `fa` is not changed (R32, R256). -/
def State.writeCtrl (s : State) (v : Word) : State := { s with fulladd := v.getLsbD 0, irqen := v.getLsbD 1 }

/-- The acknowledgement of a completion and of an error: a STATUS write acts through bits 1 and 2 only, write 1
clears; ERRCODE is set to 0 whenever ERR is cleared (R33, R223, R229). -/
def State.writeStatus (s : State) (v : Word) : State :=
  { s with
    done := s.done && !v.getLsbD 1
    err := s.err && !v.getLsbD 2
    errcode := if v.getLsbD 2 then .none else s.errcode }

/-- `irq = CTRL.IRQEN & (STATUS.DONE | STATUS.ERR)`, a function of current state only (R226). -/
def State.irq (s : State) : Bool := s.irqen && (s.done || s.err)

/-- `ent_ready = 1` exactly when `phase == BUSY` and `need > 0` (R170). -/
def State.entReady (s : State) : Bool := s.isBusy && decide (s.need > 0)

/-- What the internal temporaries hold: unspecified (R45, U21). -/
def State.temporaries (s : State) : List Int := Config.temporaryContents s.tempGen

end Sys2Proof.Machine
end

