-- ==== Sys2Proof/Machine/Ops.lean ====
section
/-! DEFINITION. The shared operations: modular reduction and ring arithmetic (41_reduce_ring.md), public keys and the
threshold (42_protocol.md), the codec (43_codec.md), recording an error (60_exceptions.md rule R223), the command
lifecycle (40_sequencing.md rules R121 to R123) and reset (70_reset_and_hazards.md rule R250). -/

namespace Sys2Proof

/-! ### Integer arithmetic (R140 to R142) -/

/-- The last two comparisons of `reduce` (R141). -/
def foldRemainder (m : Int) : Int :=
  if m > Config.maxMagnitude then m - Config.span
  else if m < -Config.maxMagnitude then m + Config.span
  else m

/-- `reduce(x)` for every integer `x` (R141); the remainder is the floored one, which cannot be observed (R142, U1). -/
def reduce (x : Int) : Int := foldRemainder (x % Config.span)

namespace RingVec

/-! ### Ring addition and subtraction (R144, R145) -/

/-- `n = 256 if fa == 1 else 255`: how many indices addition and subtraction compute (R144). -/
def computedIndices (fa : Bool) : Nat := if fa then 256 else 255

/-- `ring_add(a, b, fa)` (R144): index 255 is written 0 when `fa = 0`. -/
def add (a b : RingVec) (fa : Bool) : RingVec :=
  tabulate fun i => if i < computedIndices fa then reduce (a.coeff i + b.coeff i) else 0

/-- `ring_sub(a, b, fa)` (R145). -/
def sub (a b : RingVec) (fa : Bool) : RingVec :=
  tabulate fun i => if i < computedIndices fa then reduce (a.coeff i - b.coeff i) else 0

/-! ### Negacyclic rotation and multiplication (R148, R150) -/

/-- Index `d` of `rotate_right(v, shift)` for a term vector `v` (R148). The source index that lands at `d` is
`(d + 256 - k) mod 256`; its value is negated when `d < k`. -/
def rotatedTerm (v : Nat → Int) (shift d : Nat) : Int :=
  if shift % 256 = 0 then v d
  else if d < shift % 256 then -v ((d + 256 - shift % 256) % 256)
  else v ((d + 256 - shift % 256) % 256)

/-- `rotate_right(v, shift)` for a ring (R148). -/
def rotateRight (v : RingVec) (shift : Nat) : RingVec := tabulate (rotatedTerm v.coeff shift)

/-- `acc[d]` of `ring_mul(a, b)` after its steps `i = 0, …, n-1` (R150). -/
def mulAcc (a b : Nat → Int) : Nat → Nat → Int
  | 0, _ => 0
  | n + 1, d => reduce (mulAcc a b n d + reduce (rotatedTerm (fun j => a j * b n) n d))

/-- `ring_mul(a, b)` (R150). All 256 indices are processed; `fa` plays no part. -/
def mul (a b : RingVec) : RingVec := tabulate fun d => reduce (mulAcc a.coeff b.coeff 256 d)

/-! ### The threshold (R181) -/

/-- The decision for one coefficient: 0 iff it is in `[half, -half]` (R181). -/
def decideSymbol (x : Int) : Int := if Config.half ≤ x ∧ x ≤ -Config.half then 0 else Config.symbolOne

/-- `threshold(v)` (R181): every coefficient, index 255 too. -/
def threshold (v : RingVec) : RingVec := tabulate fun i => decideSymbol (v.coeff i)

/-! ### The codec (R200, R202) -/

/-- `string_to_ring(s)` for the `len` bytes `s 0, …, s (len - 1)` (R200): bit 7 of a byte first; 0 from index
`8 * len` on. -/
def ofBytes (s : Nat → Byte) (len : Nat) : RingVec :=
  tabulate fun i => if i / 8 < len ∧ (s (i / 8)).getLsbD (7 - i % 8) = true then Config.symbolOne else 0

/-- `b[i]`: 1 iff the coefficient is exactly -1664 (R202). -/
def bitAt (v : RingVec) (i : Nat) : Nat := if v.coeff i = Config.symbolOne then 1 else 0

/-- `sum_{t=0}^{7} b[8p+t] * 2^(7-t)` (R202). -/
def byteAt (v : RingVec) (p : Nat) : Byte :=
  BitVec.ofNat 8 (((List.range 8).map fun t => v.bitAt (8 * p + t) * 2 ^ (7 - t)).sum)

/-- The bytes at which `ring_to_string` stops (R202). -/
def isTerminator (b : Byte) : Bool := b == 0x00 || b == 0xFF

/-- `ring_to_string(v)`: the bytes before the first terminator, 0 to 32 of them (R202). -/
def toBytes (v : RingVec) : List Byte := ((List.range 32).map v.byteAt).takeWhile fun b => !isTerminator b

end RingVec

namespace Machine

/-! ### Protocol operations (R172 to R174) -/

/-- Row `n` of the draws: draw `256 n + k` fills coefficient `k` (R172). -/
def drawRow (s : State) (n : Nat) : RingVec := .tabulate fun k => s.draw (256 * n + k)

/-- Fill the listed ring registers with the rows of draws from row `n` on, in order (R172). -/
def fillRows (s : State) : List RegNum → Nat → State → State
  | [], _, t => t
  | r :: rs, n, t => fillRows s rs (n + 1) (t.setRing r (drawRow s n))

/-- `pk_recv(fa)` (R173): rows `[t0, t1]` and `[t2, t3]` of the table with the receiver's secret and noise. -/
def pkRecv (s : State) (fa : Bool) : RingVec × RingVec :=
  ((((s.ring Role.t0).mul (s.ring Role.s0)).add ((s.ring Role.t1).mul (s.ring Role.s1)) fa).add (s.ring Role.e0) fa,
   (((s.ring Role.t2).mul (s.ring Role.s0)).add ((s.ring Role.t3).mul (s.ring Role.s1)) fa).add (s.ring Role.e1) fa)

/-- `pk_send(fa)` (R174): the transposed pairing, with the sender's secret and noise. -/
def pkSend (s : State) (fa : Bool) : RingVec × RingVec :=
  ((((s.ring Role.t0).mul (s.ring Role.ss0)).add ((s.ring Role.t2).mul (s.ring Role.ss1)) fa).add (s.ring Role.se0) fa,
   (((s.ring Role.t1).mul (s.ring Role.ss0)).add ((s.ring Role.t3).mul (s.ring Role.ss1)) fa).add (s.ring Role.se1) fa)

/-! ### Errors (R220 to R225) -/

/-- `raise Error(code)` (R223): the engine's whole reaction to an error. ERR is set; ERRCODE takes the code if ERR was 0
and keeps the first error if it was 1. Nothing is saved, no control is transferred and no mode changes (R220, R228).
The host's acknowledgement is `State.writeStatus` (R229). -/
def raiseError (code : ErrCode) (s : State) : State :=
  { s with err := true, errcode := if s.err then s.errcode else code }

/-! ### The command lifecycle (R121 to R123) -/

/-- `accept(v, k)` (R121), with the number of draws that the command needs. ERR and ERRCODE are not changed. -/
def accept (v : Word) (draws : Nat) (s : State) : State :=
  { s with cmd := some v, fa := s.fulladd, drawbuf := [], need := draws, done := false, phase := .busy }

/-- `refuse(code)` (R122). -/
def refuse (code : ErrCode) (s : State) : State := { raiseError code s with done := true }

/-- The end of `complete()` (R123), after the command's writes. -/
def complete (s : State) : State := { s with phase := .idle, done := true, drawbuf := [] }

/-- A latched word that submission would have refused ends as submission refuses it (R122): no result, the error
recorded, DONE set, idle. No run reaches this, since `submit` latches no such word; `withFetchWord` can. -/
def refuseLatched (code : ErrCode) (s : State) : State := refuse code { s with phase := .idle, drawbuf := [] }

/-- A command that uses the internal temporaries leaves unspecified contents in them (R45, U21). -/
def disturbTemporaries (s : State) : State := { s with tempGen := s.tempGen + 1 }

/-- How many draws a command needs (R121, R171). -/
def drawsNeeded : Instr → Nat
  | .nop => 0
  | .radd _ _ _ => 0
  | .rsub _ _ _ => 0
  | .rmul _ _ _ => 0
  | .rrot _ _ _ => 0
  | .rgen _ => 256
  | .sred => 0
  | .menc _ _ => 0
  | .mthr _ _ => 0
  | .mdec _ => 0
  | .kgen => 2048
  | .pkder => 0
  | .sgen => 1024
  | .spkder => 0
  | .enc => 0
  | .dec => 0

/-- The check of a decoded command at submission, the only one there is: MENC's length (R120, R201). -/
def submissionError : Instr → Option ErrCode
  | .nop => none
  | .radd _ _ _ => none
  | .rsub _ _ _ => none
  | .rmul _ _ _ => none
  | .rrot _ _ _ => none
  | .rgen _ => none
  | .sred => none
  | .menc _ len => if lengthTooLong len then some .tooLong else none
  | .mthr _ _ => none
  | .mdec _ => none
  | .kgen => none
  | .pkder => none
  | .sgen => none
  | .spkder => none
  | .enc => none
  | .dec => none

/-- The draw that a code stands for; 0b10 is rejected (R170). -/
def drawOfCode (c : Code) : Option Draw :=
  if c = 0b00 then some .zero
  else if c = 0b01 then some .plusOne
  else if c = 0b11 then some .minusOne
  else none

/-- `accept_code(c)` (R170). -/
def acceptCode (c : Code) (s : State) : State :=
  match drawOfCode c with
  | some v => { s with drawbuf := s.drawbuf ++ [v], need := s.need - 1 }
  | none => s

/-! ### Reset (R250, R251) -/

/-- Every piece of the engine's state takes its reset value; a command in flight is aborted and its draws discarded
(R250, R251). The temporaries are unspecified after it (R45). The inputs and the last answer on the bus are not the
engine's and stay. -/
def applyReset (s : State) : State :=
  { State.reset with
    tempGen := s.tempGen + 1, rst := s.rst, entropy := s.entropy, turns := s.turns, readData := s.readData }

end Machine

end Sys2Proof
end

