-- ==== Sys2Proof/Machine/Arithmetic.lean ====
section
/-! DEFINITION. The meanings of SRED, RADD, RSUB, RROT and RMUL (41_reduce_ring.md). -/

namespace Sys2Proof.Machine

/-- SRED (R143): `SCALAR_OUT <- sext_32(reduce(sext_32(SCALAR_IN)))`. -/
def execSred (s : State) : Host.Outcome State Fault Refusal :=
  .next (complete { s with scalarOut := BitVec.ofInt 32 (reduce s.scalarValue) })

/-- RADD (R146): `RR[RD] <- ring_add(RR[RS1], RR[RS2], fa)`. -/
def execRadd (rd rs1 rs2 : RegNum) (s : State) : Host.Outcome State Fault Refusal :=
  .next (complete (s.setRing rd ((s.ring rs1).add (s.ring rs2) s.fa)))

/-- RSUB (R147): `RR[RD] <- ring_sub(RR[RS1], RR[RS2], fa)`. -/
def execRsub (rd rs1 rs2 : RegNum) (s : State) : Host.Outcome State Fault Refusal :=
  .next (complete (s.setRing rd ((s.ring rs1).sub (s.ring rs2) s.fa)))

/-- RROT (R149): `RR[RD] <- rotate_right(RR[RS1], IMM16)`; FULLADD has no effect. -/
def execRrot (rd rs1 : RegNum) (imm : Nat) (s : State) : Host.Outcome State Fault Refusal :=
  .next (complete (s.setRing rd ((s.ring rs1).rotateRight (shiftAmount imm))))

/-- RMUL (R152): `RR[RD] <- ring_mul(RR[RS1], RR[RS2])`; FULLADD has no effect. -/
def execRmul (rd rs1 rs2 : RegNum) (s : State) : Host.Outcome State Fault Refusal :=
  .next (complete (disturbTemporaries (s.setRing rd ((s.ring rs1).mul (s.ring rs2)))))

end Sys2Proof.Machine
end

