-- ==== Sys2Proof/Machine/Codec.lean ====
section
/-! DEFINITION. The meanings of MENC and MDEC (43_codec.md). -/

namespace Sys2Proof.Machine

/-- MENC (R201): `RR[RD] <- string_to_ring(MSG[0..L-1])`. A length above 32 is refused at submission, so it is never
latched by a run; executed all the same, it ends as submission ends it: E_TOOLONG, and `RR[RD]` is not written. -/
def execMenc (rd : RegNum) (len : Nat) (s : State) : Host.Outcome State Fault Refusal :=
  if lengthTooLong len then .next (refuseLatched .tooLong s)
  else .next (complete (s.setRing rd (RingVec.ofBytes s.msgByte len)))

/-- MDEC (R203): the decoded bytes to MSG, 0 beyond them, their number to DEC_LEN. -/
def execMdec (rs1 : RegNum) (s : State) : Host.Outcome State Fault Refusal :=
  .next (complete (s.setMessage (s.ring rs1).toBytes))

end Sys2Proof.Machine
end

