-- ==== Sys2Proof/Machine/Protocol.lean ====
section
/-! DEFINITION. The meanings of RGEN, KGEN, PKDER, SGEN, SPKDER, ENC, MTHR and DEC (42_protocol.md). -/

namespace Sys2Proof.Machine

/-- RGEN (R175): `RR[RD][k] <- drawbuf[k]`. -/
def execRgen (rd : RegNum) (s : State) : Host.Outcome State Fault Refusal :=
  .next (complete (s.setRing rd (drawRow s 0)))

/-- The registers that KGEN fills with rows 0 to 7 (R172). -/
def kgenRows : List RegNum := [Role.s0, Role.s1, Role.e0, Role.e1, Role.t0, Role.t1, Role.t2, Role.t3]

/-- KGEN (R176): the eight rows, then the public key derived from the new rows. -/
def execKgen (s : State) : Host.Outcome State Fault Refusal :=
  let t := fillRows s kgenRows 0 s
  let pk := pkRecv t s.fa
  .next (complete (disturbTemporaries ((t.setRing Role.p0 pk.1).setRing Role.p1 pk.2)))

/-- PKDER (R177): `(RR8, RR9) <- pk_recv(fa)`. -/
def execPkder (s : State) : Host.Outcome State Fault Refusal :=
  let pk := pkRecv s s.fa
  .next (complete (disturbTemporaries ((s.setRing Role.p0 pk.1).setRing Role.p1 pk.2)))

/-- The registers that SGEN fills with rows 0 to 3 (R172). -/
def sgenRows : List RegNum := [Role.ss0, Role.ss1, Role.se0, Role.se1]

/-- SGEN (R178): the four rows, then the sender's public key derived from the new rows. -/
def execSgen (s : State) : Host.Outcome State Fault Refusal :=
  let t := fillRows s sgenRows 0 s
  let pk := pkSend t s.fa
  .next (complete (disturbTemporaries ((t.setRing Role.u0 pk.1).setRing Role.u1 pk.2)))

/-- SPKDER (R179): `(RR14, RR15) <- pk_send(fa)`. -/
def execSpkder (s : State) : Host.Outcome State Fault Refusal :=
  let pk := pkSend s s.fa
  .next (complete (disturbTemporaries ((s.setRing Role.u0 pk.1).setRing Role.u1 pk.2)))

/-- `noise_term` of ENC (R180). -/
def noiseTerm (s : State) (fa : Bool) : RingVec :=
  ((s.ring Role.ss0).mul (s.ring Role.p0)).add ((s.ring Role.ss1).mul (s.ring Role.p1)) fa

/-- ENC (R180): `RR17 <- ring_add(noise_term, RR16, fa)`. RR16 is not checked (U7). -/
def execEnc (s : State) : Host.Outcome State Fault Refusal :=
  .next (complete (disturbTemporaries (s.setRing Role.c ((noiseTerm s s.fa).add (s.ring Role.m) s.fa))))

/-- MTHR (R182): `RR[RD] <- threshold(RR[RS1])`. -/
def execMthr (rd rs1 : RegNum) (s : State) : Host.Outcome State Fault Refusal :=
  .next (complete (s.setRing rd (s.ring rs1).threshold))

/-- `predicted` of DEC (R183). -/
def predicted (s : State) (fa : Bool) : RingVec :=
  ((s.ring Role.s0).mul (s.ring Role.u0)).add ((s.ring Role.s1).mul (s.ring Role.u1)) fa

/-- `noisy` of DEC (R183). -/
def noisy (s : State) (fa : Bool) : RingVec := (s.ring Role.c).sub (predicted s fa) fa

/-- DEC (R183): `RR18 <- threshold(noisy)`; `predicted` and `noisy` are written to no register. -/
def execDec (s : State) : Host.Outcome State Fault Refusal :=
  .next (complete (disturbTemporaries (s.setRing Role.w (noisy s s.fa).threshold)))

end Sys2Proof.Machine
end

