-- ==== Sys2Proof/Machine/Sequencing.lean ====
section
/-! DEFINITION. The meaning of NOP (40_sequencing.md rule R127). A meaning is what the command's completion step does:
its effect, from the values before the step (R124), and then the end of `complete()` (R123). -/

namespace Sys2Proof.Machine

/-- NOP: no writes (R127). -/
def execNop (s : State) : Host.Outcome State Fault Refusal := .next (complete s)

end Sys2Proof.Machine
end

