-- ==== Sys2Proof/Machine/Dispatch.lean ====
section
/-! DEFINITION. One arm per command: the meaning of its completion step (40_sequencing.md rule R123). -/

namespace Sys2Proof.Machine

def exec (i : Instr) (s : State) : Host.Outcome State Fault Refusal :=
  match i with
  | .nop => Sys2Proof.Machine.execNop s
  | .radd rd rs1 rs2 => Sys2Proof.Machine.execRadd rd rs1 rs2 s
  | .rsub rd rs1 rs2 => Sys2Proof.Machine.execRsub rd rs1 rs2 s
  | .rmul rd rs1 rs2 => Sys2Proof.Machine.execRmul rd rs1 rs2 s
  | .rrot rd rs1 imm => Sys2Proof.Machine.execRrot rd rs1 imm s
  | .rgen rd => Sys2Proof.Machine.execRgen rd s
  | .sred => Sys2Proof.Machine.execSred s
  | .menc rd len => Sys2Proof.Machine.execMenc rd len s
  | .mthr rd rs1 => Sys2Proof.Machine.execMthr rd rs1 s
  | .mdec rs1 => Sys2Proof.Machine.execMdec rs1 s
  | .kgen => Sys2Proof.Machine.execKgen s
  | .pkder => Sys2Proof.Machine.execPkder s
  | .sgen => Sys2Proof.Machine.execSgen s
  | .spkder => Sys2Proof.Machine.execSpkder s
  | .enc => Sys2Proof.Machine.execEnc s
  | .dec => Sys2Proof.Machine.execDec s

end Sys2Proof.Machine
end

