-- ==== Sys2Proof/Machine/HostPort.lean ====
section
/-! DEFINITION. Host transactions on the register block (20_memory.md) and the submission of a command
(40_sequencing.md rule R120). -/

namespace Sys2Proof.Machine

/-- `submit(v)` (R120): busy first, then the decoding, then MENC's length (R224). -/
def submit (v : Word) (s : State) : State :=
  if s.isBusy then raiseError .busy s
  else match decode v with
    | .error _ => refuse .illegal s
    | .ok i =>
      match submissionError i with
      | some code => refuse code s
      | none => accept v (drawsNeeded i) s

/-- The window's range check: `-1664 <= sext_32(v) <= 1664` (R72). -/
def inWindowRange (v : Word) : Bool :=
  decide (-Config.maxMagnitude ≤ v.toInt) && decide (v.toInt ≤ Config.maxMagnitude)

/-- What a register reads as when it is not locked (R31 to R39, R65, R71, R73). -/
def registerWord (s : State) : HostReg → Word
  | .id => Config.idValue
  | .ctrl => s.ctrlWord
  | .status => s.statusWord
  | .cmd => 0
  | .scalarIn => s.scalarIn
  | .scalarOut => s.scalarOut
  | .winSel => (0 : BitVec 27) ++ (BitVec.ofFin s.winSel : BitVec 5)
  | .decLen => (0 : BitVec 26) ++ s.decLen
  | .msg w => s.msgWord w
  | .win i => (s.ring s.winSel)[i].signExtend 32
  | .reserved => 0

/-- What a write does to a register that is not locked (R31 to R39, R65, R72, R73, R120). -/
def writeRegister (r : HostReg) (v : Word) (s : State) : State :=
  match r with
  | .id => s
  | .ctrl => s.writeCtrl v
  | .status => s.writeStatus v
  | .cmd => submit v s
  | .scalarIn => { s with scalarIn := v }
  | .scalarOut => s
  | .winSel => { s with winSel := (v.extractLsb' 0 5).toFin }
  | .decLen => s
  | .msg w => s.setMsgWord w v
  | .win i => if inWindowRange v then s.setCoeff s.winSel i (BitVec.ofInt 12 v.toInt) else raiseError .range s
  | .reserved => s

/-- The busy lock (R74): the register is in the data group and STATUS.BUSY is 1. -/
def locked (r : HostReg) (s : State) : Bool := r.inDataGroup && s.isBusy

/-- `MemRead(off, 4)`: the word goes to `readData`. A locked read returns 0 and raises E_BUSY (R70, R74). While `rst`
is asserted a read has no effect and returns 0, except that ID reads its constant (R250, C11). -/
def hostRead (off : Offset) (s : State) : State :=
  if s.rst then
    { applyReset s with readData := some (if hostReg off = .id then Config.idValue else 0) }
  else if locked (hostReg off) s then { raiseError .busy s with readData := some 0 }
  else { s with readData := some (registerWord s (hostReg off)) }

/-- `MemWrite(off, 4, v)`. A locked write changes nothing and raises E_BUSY (R70, R74). While `rst` is asserted a
write has no effect (R250). -/
def hostWrite (off : Offset) (v : Word) (s : State) : State :=
  if s.rst then applyReset s
  else if locked (hostReg off) s then raiseError .busy s
  else writeRegister (hostReg off) v s

/-- One host transaction: one atomic step, which always completes (R62). -/
def runTransaction (t : Transaction) (s : State) : State :=
  match t with
  | .read off => hostRead off s
  | .write off v => hostWrite off v s

end Sys2Proof.Machine
end

