-- ==== Sys2Proof/Machine/Engine.lean ====
section
/-! DEFINITION. The engine's own steps (R123, R170), the reset input (R250) and whose turn it is (R78, R126). -/

namespace Sys2Proof.Machine

/-- The completion step, when it is enabled (R123): `exec` of the latched command. -/
def completion (s : State) : Host.Outcome State Fault Refusal :=
  match s.cmd with
  | none => .fault .noCommandLatched
  | some w =>
    match decode w with
    | .ok i => exec i s
    | .error _ => .next (refuseLatched .illegal s)

/-- The engine consumes the next offered code; when none is offered it waits (R170, R171, R258). -/
def takeCode (s : State) : State :=
  match s.entropy with
  | [] => s
  | c :: cs => acceptCode c { s with entropy := cs }

/-- The engine's turn. While `rst` is asserted its state keeps the reset values (R250). Idle, it does nothing (R252).
Busy, it takes draws while it needs any (R171), and completes when it needs none (R123). -/
def engineTurn (s : State) : Host.Outcome State Fault Refusal :=
  if s.rst then .next (applyReset s)
  else match s.phase with
    | .idle => .next s
    | .busy => if s.need > 0 then .next (takeCode s) else completion s

/-- The reset input takes a level: the state has its reset values while it is asserted and at the step it is released
(R250, R251). -/
def setRst (level : Bool) (s : State) : State :=
  if level || s.rst then { applyReset s with rst := level } else s

/-- One turn. -/
def runTurn (t : Turn) (s : State) : Host.Outcome State Fault Refusal :=
  match t with
  | .host tx => .next (runTransaction tx s)
  | .engine => engineTurn s
  | .rst level => .next (setRst level s)

/-- Whose turn it is: the next one listed, else the engine's, so that an enabled completion is not delayed forever
(R126, R259). -/
def turnOf (s : State) : Turn := s.turns.headD .engine

/-- The state once the turn has been taken off the list. -/
def afterTurn (s : State) : State := { s with turns := s.turns.tail }

/-- The state in which the command word `w` has been accepted and every draw it needs has arrived (as the code 0b00),
and the engine is about to take its turn: what `withFetchWord` puts the machine into. -/
def withLatchedWord (s : State) (w : Word) : State :=
  let draws := match decode w with
    | .ok i => drawsNeeded i
    | .error _ => 0
  let t := accept w 0 s
  { t with
    drawbuf := List.replicate draws .zero
    rst := false
    turns := match s.turns with
      | [] => []
      | ts => .engine :: ts }

end Sys2Proof.Machine
end

