-- ==== Sys2Proof/Machine/Step.lean ====
section
/-! DEFINITION. One step of the machine: one atomic action of one agent (R78). The engine fetches nothing (R25): a
command comes to run by being latched, and `withFetchWord` latches one. -/

namespace Sys2Proof.Machine

/-- One step: the turn whose turn it is. -/
def step (s : State) : Host.Outcome State Fault Refusal := runTurn (turnOf s) (afterTurn s)

/-- The state whose next step completes the command word with these bits. -/
def State.withFetchWord (s : State) (nbits w : Nat) : State := withLatchedWord s (tableWord nbits w)

end Sys2Proof.Machine
end

