-- ==== Sys2Proof/Machine/Assembler.lean ====
section
/-! DEFINITION. The assembly language (30_encoding.md rules R100 to R105): one line of text to a command or to the
reason why it is none, and the canonical text of a command. -/

namespace Sys2Proof.Machine

/-- Why a line is refused. -/
inductive AsmError where
  /-- The mnemonic is none of R103 or R105, or the operands are not as many as it takes. -/
  | noSuchForm
  /-- An operand is no register name of R101 or R104. -/
  | notARegister
  /-- An operand is no decimal or `0x` hexadecimal number, or is outside the range that the form allows (R101, R105). -/
  | notAnImmediate
deriving DecidableEq, Repr

/-- What separates a mnemonic from its operands. -/
def isBlank (c : Char) : Bool := c == ' ' || c == '\t'

/-- Text without the blanks at its two ends. -/
def trimBlanks (t : List Char) : List Char := ((t.dropWhile isBlank).reverse.dropWhile isBlank).reverse

/-- Operands are separated by commas (R100). -/
def splitCommas : List Char → List (List Char)
  | [] => [[]]
  | c :: cs =>
    match splitCommas cs with
    | [] => [[c]]
    | t :: ts => if c == ',' then [] :: t :: ts else (c :: t) :: ts

/-- The value of a digit in lower-case text, in a base up to 16. -/
def digitValue (base : Nat) (c : Char) : Option Nat :=
  let d :=
    if '0' ≤ c ∧ c ≤ '9' then c.toNat - '0'.toNat
    else if 'a' ≤ c ∧ c ≤ 'f' then c.toNat - 'a'.toNat + 10
    else 16
  if d < base then some d else none

/-- The number that digits write, after a number already read. -/
def digitsValue (base : Nat) : Nat → List Char → Option Nat
  | n, [] => some n
  | n, c :: cs =>
    match digitValue base c with
    | some d => digitsValue base (base * n + d) cs
    | none => none

/-- A decimal number or a `0x` hexadecimal number (R101). -/
def parseNumber (t : List Char) : Option Nat :=
  match t with
  | [] => none
  | '0' :: 'x' :: c :: cs => digitsValue 16 0 (c :: cs)
  | c :: cs => digitsValue 10 0 (c :: cs)

/-- The role names of R104, in register order from `RR0`. -/
def roleNames : List String :=
  ["s0", "s1", "e0", "e1", "t0", "t1", "t2", "t3", "p0", "p1", "ss0", "ss1", "se0", "se1", "u0", "u1", "m", "c", "w"]

/-- The names `r0` to `r31` (R101). -/
def plainNames : List String := (List.range 32).map fun n => "r" ++ Nat.repr n

/-- The register that an operand names (R101, R104). -/
def parseReg (t : List Char) : Except AsmError RegNum :=
  let name := String.ofList t
  match plainNames.idxOf? name, roleNames.idxOf? name with
  | some n, _ => .ok (Fin.ofNat 32 n)
  | none, some n => .ok (Fin.ofNat 32 n)
  | none, none => .error .notARegister

/-- An immediate in `0..limit` (R101, R105). -/
def parseImm (limit : Nat) (t : List Char) : Except AsmError Nat :=
  match parseNumber t with
  | some n => if n ≤ limit then .ok n else .error .notAnImmediate
  | none => .error .notAnImmediate

/-- One register operand, applied to what it completes. -/
def withReg {α : Type} (t : List Char) (f : RegNum → Except AsmError α) : Except AsmError α :=
  match parseReg t with
  | .ok r => f r
  | .error e => .error e

/-- One immediate operand, applied to what it completes. -/
def withImm {α : Type} (limit : Nat) (t : List Char) (f : Nat → Except AsmError α) : Except AsmError α :=
  match parseImm limit t with
  | .ok n => f n
  | .error e => .error e

/-- The command of a mnemonic and its operands (R103), the pseudo-instructions expanded (R105). -/
def assembleForm (mnemonic : String) (operands : List (List Char)) : Except AsmError Instr :=
  match mnemonic, operands with
  | "nop", [] => .ok .nop
  | "radd", [a, b, c] => withReg a fun rd => withReg b fun rs1 => withReg c fun rs2 => .ok (.radd rd rs1 rs2)
  | "rsub", [a, b, c] => withReg a fun rd => withReg b fun rs1 => withReg c fun rs2 => .ok (.rsub rd rs1 rs2)
  | "rmul", [a, b, c] => withReg a fun rd => withReg b fun rs1 => withReg c fun rs2 => .ok (.rmul rd rs1 rs2)
  | "rrot", [a, b, c] => withReg a fun rd => withReg b fun rs1 => withImm 65535 c fun imm => .ok (.rrot rd rs1 imm)
  | "rgen", [a] => withReg a fun rd => .ok (.rgen rd)
  | "sred", [] => .ok .sred
  | "menc", [a, b] => withReg a fun rd => withImm 65535 b fun len => .ok (.menc rd len)
  | "mthr", [a, b] => withReg a fun rd => withReg b fun rs1 => .ok (.mthr rd rs1)
  | "mdec", [a] => withReg a fun rs1 => .ok (.mdec rs1)
  | "kgen", [] => .ok .kgen
  | "pkder", [] => .ok .pkder
  | "sgen", [] => .ok .sgen
  | "spkder", [] => .ok .spkder
  | "enc", [] => .ok .enc
  | "dec", [] => .ok .dec
  | "rmov", [a, b] => withReg a fun rd => withReg b fun rs => .ok (.rrot rd rs 0)
  | "rmulx", [a, b, c] => withReg a fun rd => withReg b fun rs => withImm 255 c fun k => .ok (.rrot rd rs k)
  | "rclr", [a] => withReg a fun rd => .ok (.rsub rd rd rd)
  | _, _ => .error .noSuchForm

/-- One line (R100): case is ignored, `#` starts a comment, and a line that holds nothing else is no command. -/
def assembleLine (line : String) : Except AsmError (Option Instr) :=
  let text := trimBlanks ((line.toList.takeWhile (· != '#')).map Char.toLower)
  let mnemonic := text.takeWhile fun c => !isBlank c
  let rest := trimBlanks (text.dropWhile fun c => !isBlank c)
  if text.isEmpty then .ok none
  else
    match assembleForm (String.ofList mnemonic) (if rest.isEmpty then [] else (splitCommas rest).map trimBlanks) with
    | .ok i => .ok (some i)
    | .error e => .error e

/-- The canonical spelling of a register (R101). -/
def regText (r : RegNum) : String := "r" ++ Nat.repr r.val

/-- The canonical, lower-case text of a command (R100, R103). -/
def asmText : Instr → String
  | .nop => "nop"
  | .radd rd rs1 rs2 => "radd " ++ regText rd ++ ", " ++ regText rs1 ++ ", " ++ regText rs2
  | .rsub rd rs1 rs2 => "rsub " ++ regText rd ++ ", " ++ regText rs1 ++ ", " ++ regText rs2
  | .rmul rd rs1 rs2 => "rmul " ++ regText rd ++ ", " ++ regText rs1 ++ ", " ++ regText rs2
  | .rrot rd rs1 imm => "rrot " ++ regText rd ++ ", " ++ regText rs1 ++ ", " ++ Nat.repr imm
  | .rgen rd => "rgen " ++ regText rd
  | .sred => "sred"
  | .menc rd len => "menc " ++ regText rd ++ ", " ++ Nat.repr len
  | .mthr rd rs1 => "mthr " ++ regText rd ++ ", " ++ regText rs1
  | .mdec rs1 => "mdec " ++ regText rs1
  | .kgen => "kgen"
  | .pkder => "pkder"
  | .sgen => "sgen"
  | .spkder => "spkder"
  | .enc => "enc"
  | .dec => "dec"

end Sys2Proof.Machine
end

