-- ==== Sys2Proof/Safety.lean ====
section
/-! DEFINITION. The terms that claims use: canonical values, the exact values that results are reduced from, the frame
of a completion, and the invariant of the machine. -/

namespace Sys2Proof

/-- A canonical value: in `[-1664, 1664]` (R7, R22). -/
abbrev Canonical (x : Int) : Prop := -1664 ≤ x ∧ x ≤ 1664

/-- `y` is the canonical representative of `x` modulo 3329 (R141). -/
abbrev IsReduced (y x : Int) : Prop := Canonical y ∧ y % 3329 = x % 3329

/-- Lane `k` of a result that ends in ring additions or subtractions: `y` represents `x` at every index they compute,
and is 0 at index 255 when `fa = 0` (R144, R145). -/
abbrev LaneValue (fa : Bool) (k : Nat) (y x : Int) : Prop :=
  (k < 255 ∨ fa = true → IsReduced y x) ∧ (k = 255 ∧ fa = false → y = 0)

/-- Coefficient `k` of the exact negacyclic product, before it is reduced (R151). -/
def negacyclicSum (a b : Nat → Int) (k : Nat) : Int :=
  (∑ i ∈ Finset.range (k + 1), a (k - i) * b i) - ∑ i ∈ Finset.Ico (k + 1) 256, a (k + 256 - i) * b i

namespace RingVec

/-- Every coefficient is canonical (R22). -/
abbrev IsCanonical (v : RingVec) : Prop := ∀ k < 256, Canonical (v.coeff k)

/-- Every coefficient is in {-1, 0, 1} (R7). -/
abbrev IsTernary (v : RingVec) : Prop := ∀ k < 256, -1 ≤ v.coeff k ∧ v.coeff k ≤ 1

/-- The all-zero ring. -/
def zero : RingVec := tabulate fun _ => 0

/-- `{k: c}`: coefficient `k` is `c`, every other is 0 (R11). -/
def monomial (k : Nat) (c : Int) : RingVec := tabulate fun i => if i = k then c else 0

/-- Coefficient `k` of the exact product of two rings (R151). -/
def exactProduct (a b : RingVec) (k : Nat) : Int := negacyclicSum a.coeff b.coeff k

end RingVec

namespace Machine

/-- Every coefficient of every ring register is canonical (R22). -/
def State.RingsCanonical (s : State) : Prop := ∀ r : RegNum, (s.ring r).IsCanonical

/-- What a completion does to the phase, DONE and the draws (R123). -/
structure Completed (t : State) : Prop where
  phase   : t.phase = .idle
  done    : t.done = true
  drawbuf : t.drawbuf = []

/-- What a completion leaves unchanged. `rings` are the ring registers it writes; `scalar` says that it writes
SCALAR_OUT, `message` that it writes MSG and DEC_LEN, `temps` that it uses the internal temporaries. -/
structure Frame (rings : List RegNum) (scalar message temps : Bool) (s t : State) : Prop where
  rr        : ∀ r, r ∉ rings → t.ring r = s.ring r
  ctrl      : t.fulladd = s.fulladd ∧ t.irqen = s.irqen
  err       : t.err = s.err ∧ t.errcode = s.errcode
  scalarIn  : t.scalarIn = s.scalarIn
  scalarOut : scalar = false → t.scalarOut = s.scalarOut
  winSel    : t.winSel = s.winSel
  msg       : message = false → t.msg = s.msg ∧ t.decLen = s.decLen
  latched   : t.cmd = s.cmd ∧ t.fa = s.fa ∧ t.need = s.need
  temps     : temps = false → t.tempGen = s.tempGen
  inputs    : t.rst = s.rst ∧ t.entropy = s.entropy ∧ t.turns = s.turns
  readData  : t.readData = s.readData

/-- The latched command is `i`, and submission accepts it (R120). -/
def State.Latched (s : State) (i : Instr) : Prop :=
  ∃ w, s.cmd = some w ∧ decode w = .ok i ∧ submissionError i = none

/-- The invariant of the machine: what every run from reset keeps, and every step keeps from any state that has it. -/
structure State.Inv (s : State) : Prop where
  /-- R22. -/
  rings     : s.RingsCanonical
  /-- SCALAR_OUT always holds a canonical value (R36). -/
  scalarOut : Canonical s.scalarOut.toInt
  /-- LEN is in 0..32 (R38). -/
  decLen    : s.decLen.toNat ≤ 32
  /-- ERRCODE is 0 exactly when ERR is 0, and E_SHAPE is never raised (R33, R221, R223). -/
  errcode   : (s.err = false ↔ s.errcode = .none) ∧ s.errcode ≠ .shape
  /-- Idle, the engine needs and holds no draw (R50, R123). -/
  idle      : s.phase = .idle → s.need = 0 ∧ s.drawbuf = []
  /-- Busy, DONE is 0 and an accepted command is latched with its draws, those it holds and those it needs (R121, R170). -/
  busy      : s.phase = .busy → s.done = false ∧ ∃ i, s.Latched i ∧ s.need + s.drawbuf.length = drawsNeeded i
  /-- While `rst` is asserted, every piece of the engine's state has its reset value (R250). -/
  inReset   : s.rst = true → s =
    { State.reset with
      tempGen := s.tempGen, rst := true, entropy := s.entropy, turns := s.turns, readData := s.readData }

end Machine

end Sys2Proof
end

