-- ==== Sys2Proof/Certificates/Slice0/Obligations.lean ====
section
/-! DEFINITION. The statements for the provers. Each docstring names the rules of spec/ that the statement rests on. -/

open Sys2Proof Sys2Proof.Machine

/-! ### Encoding -/

/-- Words of 95_test_vectors.md V10 and of the programs P1 to P5 decode to the commands that they stand for there. -/
def Obligations.SpecWordsDecode : Prop :=
  decode 0x00000000 = .ok .nop ∧
  decode 0x04221800 = .ok (.radd 1 2 3) ∧
  decode 0x0AF5B000 = .ok (.rsub 23 21 22) ∧
  decode 0x0EB3A000 = .ok (.rmul 21 19 20) ∧
  decode 0x13FFFFFF = .ok (.rrot 31 31 65535) ∧
  decode 0x16600000 = .ok (.rgen 19) ∧
  decode 0x18000000 = .ok .sred ∧
  decode 0x1E000021 = .ok (.menc 16 33) ∧
  decode 0x22700000 = .ok (.mthr 19 16) ∧
  decode 0x24120000 = .ok (.mdec 18) ∧
  decode 0x40000000 = .ok .kgen ∧ decode 0x44000000 = .ok .pkder ∧ decode 0x48000000 = .ok .sgen ∧
  decode 0x4C000000 = .ok .spkder ∧ decode 0x50000000 = .ok .enc ∧ decode 0x54000000 = .ok .dec

/-- R91 to R96, R103: every command with an encoding, with every operand at every value, decodes from its word. -/
def Obligations.DecodeOfEncode : Prop := ∀ i : Instr, i.wellFormed = true → decode (encode i) = .ok i

/-- R91 to R96, R103: a word that decodes is the word of the command it decodes to, so no two words share a meaning. -/
def Obligations.EncodeOfDecode : Prop :=
  ∀ (w : Word) (i : Instr), decode w = .ok i → i.wellFormed = true ∧ encode i = w

/-- R97: the illegal words are (a) those whose OPC is 0x0A..0x0F or 0x16..0x3F and (b) those with a defined OPC and a
reserved field that is not 0. Submitting one to the idle engine raises E_ILLEGAL, sets DONE (R122), and changes no
other state. -/
def Obligations.IllegalWordsRaiseIllegal : Prop :=
  ∀ w : Word,
    let opc := w.toNat / 2 ^ 26
    let reserved :=
      if opc = 1 ∨ opc = 2 ∨ opc = 3 then w.toNat % 2 ^ 11
      else if opc = 4 then 0
      else if opc = 5 then w.toNat % 2 ^ 21
      else if opc = 7 then w.toNat / 2 ^ 16 % 2 ^ 5
      else if opc = 8 then w.toNat % 2 ^ 16
      else if opc = 9 then w.toNat / 2 ^ 21 % 2 ^ 5 + w.toNat % 2 ^ 16
      else w.toNat % 2 ^ 26
    let unassigned := (0x0A ≤ opc ∧ opc ≤ 0x0F) ∨ (0x16 ≤ opc ∧ opc ≤ 0x3F)
    (decode w = .error .opcode ↔ unassigned) ∧
    (decode w = .error .reservedField ↔ ¬unassigned ∧ reserved ≠ 0) ∧
    ∀ (s : State) (off : Offset) (ts : List Turn), s.turns = .host (.write off w) :: ts → off.toNat / 4 = 3 →
      s.rst = false → s.phase = .idle → (unassigned ∨ reserved ≠ 0) →
      step s = .next { s with
        turns := ts, done := true, err := true, errcode := if s.err then s.errcode else .illegal }

/-! ### The assembler -/

/-- R100, R101, R103: the canonical text of a command with an encoding assembles to that command. How
blanks are treated is the model's choice, log entry 11. -/
def Obligations.CanonicalTextAssembles : Prop :=
  ∀ i : Instr, i.wellFormed = true → assembleLine (asmText i) = .ok (some i)

/-- R105: the pseudo-instructions expand as the table says, and each expansion is exact: `rmov` copies, `rmulx` (k in
0..255, refused above) multiplies by `x^k`, `rclr` clears in both FULLADD settings. The reason that a refused line gives
(`notAnImmediate`) and how blanks are treated are the model's choice, log entry 11. -/
def Obligations.PseudoInstructionsAreExact : Prop :=
  (∀ rd rs : RegNum, assembleLine ("rmov " ++ regText rd ++ ", " ++ regText rs) = .ok (some (.rrot rd rs 0))) ∧
  (∀ (rd rs : RegNum) (k : Nat), k ≤ 255 →
    assembleLine ("rmulx " ++ regText rd ++ ", " ++ regText rs ++ ", " ++ Nat.repr k) = .ok (some (.rrot rd rs k))) ∧
  (∀ (rd rs : RegNum) (k : Nat), 255 < k →
    assembleLine ("rmulx " ++ regText rd ++ ", " ++ regText rs ++ ", " ++ Nat.repr k) = .error .notAnImmediate) ∧
  (∀ rd : RegNum, assembleLine ("rclr " ++ regText rd) = .ok (some (.rsub rd rd rd))) ∧
  (∀ v : RingVec, v.rotateRight 0 = v) ∧
  (∀ (v : RingVec) (k : Nat), v.IsCanonical → k ≤ 255 → v.rotateRight k = v.mul (RingVec.monomial k 1)) ∧
  (∀ (v : RingVec) (fa : Bool), v.sub v fa = RingVec.zero)

/-! ### The step and the command lifecycle -/

/-- R123: with a command latched and no draw needed, a step in which the engine has the turn (it is listed next, or no
turn is listed) is the command's `exec`, the turn taken off the list. The list of turns is the model's, log entry 1. -/
def Obligations.EngineTurnRunsLatchedCommand : Prop :=
  ∀ (s : State) (w : Word) (i : Instr), s.rst = false → s.phase = .busy → s.need = 0 → s.cmd = some w →
    decode w = .ok i → (s.turns = [] ∨ s.turns.head? = some .engine) →
    step s = exec i { s with turns := s.turns.tail }

/-- The model's own placement of a command word (log entry 2): the next step runs exactly the command that the decoder
reads from the word, or, for a word that does not decode, ends as its submission would (R122; log entry 3). -/
def Obligations.FetchWordRunsDecodedCommand : Prop :=
  ∀ (s : State) (nbits w : Nat),
    let t := s.withFetchWord nbits w
    (∀ i, decodeTableWord nbits w = some i → step t = exec i { t with turns := t.turns.tail }) ∧
    (decodeTableWord nbits w = none → step t = .next { t with
      turns := t.turns.tail, phase := .idle, drawbuf := [], done := true, err := true,
      errcode := if s.err then s.errcode else .illegal })

/-- R120, R121, R122: what submitting a word does. Busy: E_BUSY and nothing else. Illegal: E_ILLEGAL and DONE. MENC with
a length above 32: E_TOOLONG and DONE. Otherwise the command is accepted. -/
def Obligations.SubmissionRefusesOrAccepts : Prop :=
  ∀ (s : State) (off : Offset) (v : Word) (ts : List Turn),
    s.turns = .host (.write off v) :: ts → off.toNat / 4 = 3 → s.rst = false →
    (s.phase = .busy → step s = .next { s with
      turns := ts, err := true, errcode := if s.err then s.errcode else .busy }) ∧
    (s.phase = .idle → (∃ e, decode v = .error e) → step s = .next { s with
      turns := ts, done := true, err := true, errcode := if s.err then s.errcode else .illegal }) ∧
    (s.phase = .idle → (∃ rd len, decode v = .ok (.menc rd len) ∧ 32 < len) → step s = .next { s with
      turns := ts, done := true, err := true, errcode := if s.err then s.errcode else .tooLong }) ∧
    (∀ i, s.phase = .idle → decode v = .ok i → (∀ rd len, i = .menc rd len → len ≤ 32) → step s = .next { s with
      turns := ts, cmd := some v, fa := s.fulladd, drawbuf := [], done := false, phase := .busy,
      need := match i with
        | .rgen _ => 256
        | .kgen => 2048
        | .sgen => 1024
        | _ => 0 })

/-- R123: the completion of every command that submission accepts answers a next state, idle with DONE set and no
draws; and what it writes depends on the ring registers, SCALAR_IN, MSG, `fa` and the draws alone: two states that
agree on these get the same rings, and the same SCALAR_OUT, MSG and DEC_LEN where they are written. -/
def Obligations.CompletionReadsOnlyItsOperands : Prop :=
  ∀ (i : Instr) (s s' : State), submissionError i = none →
    s.rr = s'.rr → s.scalarIn = s'.scalarIn → s.msg = s'.msg → s.fa = s'.fa → s.drawbuf = s'.drawbuf →
    ∃ t t', exec i s = .next t ∧ exec i s' = .next t' ∧ Completed t ∧ Completed t' ∧
      t.rr = t'.rr ∧ t.msg = t'.msg ∧
      (t.scalarOut = t'.scalarOut ∨ (t.scalarOut = s.scalarOut ∧ t'.scalarOut = s'.scalarOut)) ∧
      (t.decLen = t'.decLen ∨ (t.decLen = s.decLen ∧ t'.decLen = s'.decLen))

/-- R222: from every state with the invariant, the engine's step (a completion or the acceptance of a code) answers a
next state and raises no error. The premise rules out a busy engine with nothing latched, which no run reaches. -/
def Obligations.EngineStepsRaiseNoError : Prop :=
  ∀ s : State, s.Inv → s.rst = false →
    ∃ t, engineTurn s = .next t ∧ t.err = s.err ∧ t.errcode = s.errcode

/-- R127: NOP writes nothing: its completion makes the engine idle and sets DONE, and no other state changes (no draw
is held for a command that needs none, R121). -/
def Obligations.NopOnlyCompletes : Prop :=
  ∀ s : State, exec .nop s = .next { s with phase := .idle, done := true, drawbuf := [] }

/-- R126, R258: a command in flight completes, with no turn listed, if the entropy source still offers enough codes
other than 0b10. That the engine has the turn when none is listed is the model's choice, log entry 1;
`CommandCompletesAmidTurns` covers the states with turns listed. -/
def Obligations.CommandCompletesGivenDraws : Prop :=
  ∀ s : State, s.Inv → s.rst = false → s.turns = [] → s.phase = .busy →
    s.need ≤ (s.entropy.filter (fun c => c ≠ 0b10)).length →
    ∃ (n : Nat) (t : State), core.run n s = .next t ∧ t.phase = .idle ∧ t.done = true ∧ t.drawbuf = []

/-- R126, R258, R259: whatever finite list of turns comes first, if none of them asserts `rst`, a command in flight
completes when the entropy source still offers enough codes other than 0b10. That the engine has the turn once the list
is used up is the model's choice, log entry 1. -/
def Obligations.CommandCompletesAmidTurns : Prop :=
  ∀ s : State, s.Inv → s.rst = false → Turn.rst true ∉ s.turns → s.phase = .busy →
    s.need ≤ (s.entropy.filter (fun c => c ≠ 0b10)).length →
    ∃ (n : Nat) (t : State), core.run n s = .next t ∧ t.phase = .idle ∧ t.done = true ∧ t.drawbuf = []

/-- R258: a command that needs a draw stays in flight as long as the source offers nothing but 0b10 and reset is not
asserted: however many steps run, the engine is BUSY, needs as many draws, and no ring register has changed. -/
def Obligations.EntropyStallNeverCompletes : Prop :=
  ∀ (s : State) (n : Nat), s.rst = false → s.phase = .busy → 0 < s.need → (∀ c ∈ s.entropy, c = 0b10) →
    Turn.rst true ∉ s.turns →
    ∃ t : State, core.run n s = .next t ∧ t.phase = .busy ∧ t.need = s.need ∧ t.rr = s.rr

/-! ### Modular reduction and ring arithmetic -/

/-- R141: `reduce(x)` is the unique integer in `[-1664, 1664]` congruent to `x` modulo 3329. -/
def Obligations.ReduceIsUniqueRepresentative : Prop :=
  ∀ x y : Int, reduce x = y ↔ (-1664 ≤ y ∧ y ≤ 1664 ∧ (3329 : Int) ∣ x - y)

/-- R142: the laws of `reduce`: range, congruence, the same result for every remainder convention, idempotence,
oddness, periodicity, additivity (of sums and of products). -/
def Obligations.ReduceLaws : Prop :=
  ∀ x y k : Int,
    Canonical (reduce x) ∧ reduce x % 3329 = x % 3329 ∧
    (∀ m : Int, -3329 < m → m < 3329 → (3329 : Int) ∣ m - x →
      (if m > 1664 then m - 3329 else if m < -1664 then m + 3329 else m) = reduce x) ∧
    reduce (reduce x) = reduce x ∧ (Canonical y → reduce y = y) ∧
    reduce (-x) = -reduce x ∧ reduce (x + 3329 * k) = reduce x ∧
    reduce (reduce x + reduce y) = reduce (x + y) ∧ reduce (reduce x * reduce y) = reduce (x * y)

/-- R143, R36: SRED writes to SCALAR_OUT the sign-extended representative of SCALAR_IN read as signed. -/
def Obligations.SredWritesRepresentative : Prop :=
  ∀ s : State, ∃ t, exec .sred s = .next t ∧ Completed t ∧ Frame [] true false false s t ∧
    IsReduced t.scalarOut.toInt s.scalarIn.toInt

/-- R144, R146: RADD writes the sum's representative at every index computed, and 0 at index 255 when `fa = 0`; RD may
be RS1 or RS2 (R124). -/
def Obligations.RaddAddsLanes : Prop :=
  ∀ (s : State) (rd rs1 rs2 : RegNum), ∃ t, exec (.radd rd rs1 rs2) s = .next t ∧ Completed t ∧
    Frame [rd] false false false s t ∧
    ∀ k < 256, LaneValue s.fa k ((t.ring rd).coeff k) ((s.ring rs1).coeff k + (s.ring rs2).coeff k)

/-- R145, R147: RSUB likewise, with the difference. -/
def Obligations.RsubSubtractsLanes : Prop :=
  ∀ (s : State) (rd rs1 rs2 : RegNum), ∃ t, exec (.rsub rd rs1 rs2) s = .next t ∧ Completed t ∧
    Frame [rd] false false false s t ∧
    ∀ k < 256, LaneValue s.fa k ((t.ring rd).coeff k) ((s.ring rs1).coeff k - (s.ring rs2).coeff k)

/-- R148, R149: RROT moves source index `i` to `(i + k) mod 256`, `k = IMM16 mod 256`, and flips the sign where that
index is below `k`. The values are stated of a canonical source, as every ring of a run is (R22): the other 12-bit
values include -2048, which has no 12-bit negation. -/
def Obligations.RrotMovesAndNegatesWrapped : Prop :=
  ∀ (s : State) (rd rs1 : RegNum) (imm : Nat), ∃ t, exec (.rrot rd rs1 imm) s = .next t ∧ Completed t ∧
    Frame [rd] false false false s t ∧
    ((s.ring rs1).IsCanonical → ∀ i < 256, (t.ring rd).coeff ((i + imm % 256) % 256) =
      if (i + imm % 256) % 256 < imm % 256 then -(s.ring rs1).coeff i else (s.ring rs1).coeff i)

/-- R151, R152: RMUL writes at every index the representative of the exact negacyclic product; `fa` plays no part. -/
def Obligations.RmulMultipliesNegacyclically : Prop :=
  ∀ (s : State) (rd rs1 rs2 : RegNum), ∃ t, exec (.rmul rd rs1 rs2) s = .next t ∧ Completed t ∧
    Frame [rd] false false true s t ∧
    ∀ k < 256, IsReduced ((t.ring rd).coeff k) ((s.ring rs1).exactProduct (s.ring rs2) k)

/-- R150, R151: `ring_mul`, defined by the accumulation of R150 with its reduction after every step, equals the closed
form at every index. -/
def Obligations.RingMulEqualsClosedForm : Prop :=
  ∀ (a b : RingVec) (k : Nat), k < 256 →
    (a.mul b).coeff k = reduce
      ((∑ i ∈ Finset.range (k + 1), a.coeff (k - i) * b.coeff i) -
        ∑ i ∈ Finset.Ico (k + 1) 256, a.coeff (k + 256 - i) * b.coeff i)

/-- R153: the laws of the ring commands, the failure of distributivity for `fa = 0` included. Multiplication by `x^k`
is stated of a canonical ring, as every ring of a run is (R22). -/
def Obligations.RingLaws : Prop :=
  (∀ a b : RingVec, a.mul b = b.mul a) ∧
  (∀ (a : RingVec) (k : Nat), a.IsCanonical → k < 256 → a.mul (RingVec.monomial k 1) = a.rotateRight k) ∧
  (∀ v : RingVec, v.rotateRight 256 = v) ∧
  (∀ (a b : RingVec) (fa : Bool), a.add b fa = b.add a fa) ∧
  (∀ (a b c : RingVec) (fa : Bool), (a.add b fa).add c fa = a.add (b.add c fa) fa) ∧
  (∀ a b c : RingVec, a.mul (b.add c true) = (a.mul b).add (a.mul c) true) ∧
  ((RingVec.monomial 1 1).mul ((RingVec.monomial 255 1).add RingVec.zero false) = RingVec.zero ∧
    ((RingVec.monomial 1 1).mul (RingVec.monomial 255 1)).add ((RingVec.monomial 1 1).mul RingVec.zero) false
      = RingVec.monomial 0 (-1)) ∧
  (∀ (a : RingVec) (fa : Bool), a.sub a fa = RingVec.zero)

/-! ### Key generation, encryption and decryption -/

/-- R172, R175: RGEN fills RR[RD] with the command's draws, in order. (In this and the next statements on draws, a draw
that is not there reads as 0: the model's choice, log entry 13, in states that no run reaches.) -/
def Obligations.RgenFillsWithDraws : Prop :=
  ∀ (s : State) (rd : RegNum), ∃ t, exec (.rgen rd) s = .next t ∧ Completed t ∧ Frame [rd] false false false s t ∧
    ∀ k < 256, (t.ring rd).coeff k = (s.drawbuf.getD k .zero).toInt

/-- R172, R173, R176: KGEN fills RR0 to RR7 with draws `256 r + k`, and derives RR8, RR9 from the new rows. -/
def Obligations.KgenDrawsAndDerives : Prop :=
  ∀ s : State, ∃ t, exec .kgen s = .next t ∧ Completed t ∧
    Frame [0, 1, 2, 3, 4, 5, 6, 7, 8, 9] false false true s t ∧
    (∀ r : RegNum, r.val < 8 → ∀ k < 256, (t.ring r).coeff k = (s.drawbuf.getD (256 * r.val + k) .zero).toInt) ∧
    ∀ k < 256,
      LaneValue s.fa k ((t.ring 8).coeff k)
        ((t.ring 4).exactProduct (t.ring 0) k + (t.ring 5).exactProduct (t.ring 1) k + (t.ring 2).coeff k) ∧
      LaneValue s.fa k ((t.ring 9).coeff k)
        ((t.ring 6).exactProduct (t.ring 0) k + (t.ring 7).exactProduct (t.ring 1) k + (t.ring 3).coeff k)

/-- R173, R177: PKDER derives RR8, RR9 from the loaded rows. -/
def Obligations.PkderDerivesReceiverKey : Prop :=
  ∀ s : State, ∃ t, exec .pkder s = .next t ∧ Completed t ∧ Frame [8, 9] false false true s t ∧
    ∀ k < 256,
      LaneValue s.fa k ((t.ring 8).coeff k)
        ((s.ring 4).exactProduct (s.ring 0) k + (s.ring 5).exactProduct (s.ring 1) k + (s.ring 2).coeff k) ∧
      LaneValue s.fa k ((t.ring 9).coeff k)
        ((s.ring 6).exactProduct (s.ring 0) k + (s.ring 7).exactProduct (s.ring 1) k + (s.ring 3).coeff k)

/-- R172, R174, R178: SGEN fills RR10 to RR13 with draws, and derives RR14, RR15 from the new rows and the table. -/
def Obligations.SgenDrawsAndDerives : Prop :=
  ∀ s : State, ∃ t, exec .sgen s = .next t ∧ Completed t ∧ Frame [10, 11, 12, 13, 14, 15] false false true s t ∧
    (∀ r : RegNum, 10 ≤ r.val → r.val < 14 → ∀ k < 256,
      (t.ring r).coeff k = (s.drawbuf.getD (256 * (r.val - 10) + k) .zero).toInt) ∧
    ∀ k < 256,
      LaneValue s.fa k ((t.ring 14).coeff k)
        ((s.ring 4).exactProduct (t.ring 10) k + (s.ring 6).exactProduct (t.ring 11) k + (t.ring 12).coeff k) ∧
      LaneValue s.fa k ((t.ring 15).coeff k)
        ((s.ring 5).exactProduct (t.ring 10) k + (s.ring 7).exactProduct (t.ring 11) k + (t.ring 13).coeff k)

/-- R174, R179: SPKDER derives RR14, RR15 from the loaded rows, with the transposed pairing. -/
def Obligations.SpkderDerivesSenderKey : Prop :=
  ∀ s : State, ∃ t, exec .spkder s = .next t ∧ Completed t ∧ Frame [14, 15] false false true s t ∧
    ∀ k < 256,
      LaneValue s.fa k ((t.ring 14).coeff k)
        ((s.ring 4).exactProduct (s.ring 10) k + (s.ring 6).exactProduct (s.ring 11) k + (s.ring 12).coeff k) ∧
      LaneValue s.fa k ((t.ring 15).coeff k)
        ((s.ring 5).exactProduct (s.ring 10) k + (s.ring 7).exactProduct (s.ring 11) k + (s.ring 13).coeff k)

/-- R180: ENC writes to RR17 the representative of `ss0·p0 + ss1·p1 + m`, whatever ring m is. -/
def Obligations.EncEncrypts : Prop :=
  ∀ s : State, ∃ t, exec .enc s = .next t ∧ Completed t ∧ Frame [17] false false true s t ∧
    ∀ k < 256, LaneValue s.fa k ((t.ring 17).coeff k)
      ((s.ring 10).exactProduct (s.ring 8) k + (s.ring 11).exactProduct (s.ring 9) k + (s.ring 16).coeff k)

/-- R181, R182: MTHR writes 0 where the source is in `[-832, 832]` and -1664 elsewhere, at every index. -/
def Obligations.MthrThresholds : Prop :=
  ∀ (s : State) (rd rs1 : RegNum), ∃ t, exec (.mthr rd rs1) s = .next t ∧ Completed t ∧
    Frame [rd] false false false s t ∧
    ∀ k < 256, (t.ring rd).coeff k =
      if -832 ≤ (s.ring rs1).coeff k ∧ (s.ring rs1).coeff k ≤ 832 then 0 else -1664

/-- R181, R183: DEC writes to RR18 the threshold of the representative of `c - (s0·u0 + s1·u1)`. -/
def Obligations.DecDecrypts : Prop :=
  ∀ s : State, ∃ t, exec .dec s = .next t ∧ Completed t ∧ Frame [18] false false true s t ∧
    ∀ k < 256, ∃ y : Int,
      LaneValue s.fa k y ((s.ring 17).coeff k -
        ((s.ring 0).exactProduct (s.ring 14) k + (s.ring 1).exactProduct (s.ring 15) k)) ∧
      (t.ring 18).coeff k = if -832 ≤ y ∧ y ≤ 832 then 0 else -1664

/-- R184, first case: with FULLADD 1 throughout, after the derivation of both public keys and ENC, the ring that DEC
thresholds is the message plus `ss0·e0 + ss1·e1 - s0·se0 - s1·se1`: the table terms cancel exactly. -/
def Obligations.RoundTripNoiseFullAdd : Prop :=
  ∀ s t1 t2 t3 : State, s.fa = true → exec .pkder s = .next t1 → exec .spkder t1 = .next t2 →
    exec .enc t2 = .next t3 →
    ∀ k < 256, (noisy t3 t3.fa).coeff k = reduce ((s.ring 16).coeff k +
      ((s.ring 10).exactProduct (s.ring 2) k + (s.ring 11).exactProduct (s.ring 3) k -
        (s.ring 0).exactProduct (s.ring 12) k - (s.ring 1).exactProduct (s.ring 13) k))

/-- R184, second case: with FULLADD 0 throughout, `noisy[255]` is 0, and at every other index the legacy boundary adds
`δ0·ss0[k+1] + δ1·ss1[k+1] - γ0·s0[k+1] - γ1·s1[k+1]` to the noise, where the deltas and gammas are the index-255
coefficients that the public keys would have with FULLADD 1. -/
def Obligations.RoundTripNoiseLegacy : Prop :=
  ∀ s t1 t2 t3 : State, s.fa = false → exec .pkder s = .next t1 → exec .spkder t1 = .next t2 →
    exec .enc t2 = .next t3 →
    let d0 := (pkRecv s true).1.coeff 255
    let d1 := (pkRecv s true).2.coeff 255
    let g0 := (pkSend s true).1.coeff 255
    let g1 := (pkSend s true).2.coeff 255
    (noisy t3 t3.fa).coeff 255 = 0 ∧
    ∀ k < 255, (noisy t3 t3.fa).coeff k = reduce ((s.ring 16).coeff k +
      ((s.ring 10).exactProduct (s.ring 2) k + (s.ring 11).exactProduct (s.ring 3) k -
        (s.ring 0).exactProduct (s.ring 12) k - (s.ring 1).exactProduct (s.ring 13) k) +
      d0 * (s.ring 10).coeff (k + 1) + d1 * (s.ring 11).coeff (k + 1) -
      g0 * (s.ring 0).coeff (k + 1) - g1 * (s.ring 1).coeff (k + 1))

/-- R184, every form: the public keys come from KGEN or PKDER and from SGEN or SPKDER, with anything between the
commands that keeps the rows they leave (an acceptance, a window write of a row still to be read, MENC to RR16), and
FULLADD is the same throughout. The ring that DEC thresholds is then the message plus the noise, with the extra terms of
the legacy boundary when FULLADD is 0. -/
def Obligations.RoundTripNoiseOfAnyKeys : Prop :=
  ∀ (i j : Instr) (s t1 u1 t2 u2 t3 u3 : State) (fa : Bool),
    i = .kgen ∨ i = .pkder → j = .sgen ∨ j = .spkder →
    s.fa = fa → u1.fa = fa → u2.fa = fa → u3.fa = fa →
    exec i s = .next t1 → (∀ r : RegNum, r.val < 10 → u1.ring r = t1.ring r) →
    exec j u1 = .next t2 → (∀ r : RegNum, r.val < 16 → u2.ring r = t2.ring r) →
    exec .enc u2 = .next t3 → (∀ r : RegNum, r.val < 18 → u3.ring r = t3.ring r) →
    let n := fun k => (u2.ring 10).exactProduct (u2.ring 2) k + (u2.ring 11).exactProduct (u2.ring 3) k -
      (u2.ring 0).exactProduct (u2.ring 12) k - (u2.ring 1).exactProduct (u2.ring 13) k
    let d0 := (pkRecv u2 true).1.coeff 255
    let d1 := (pkRecv u2 true).2.coeff 255
    let g0 := (pkSend u2 true).1.coeff 255
    let g1 := (pkSend u2 true).2.coeff 255
    (fa = true → ∀ k < 256, (noisy u3 fa).coeff k = reduce ((u2.ring 16).coeff k + n k)) ∧
    (fa = false → (noisy u3 fa).coeff 255 = 0 ∧
      ∀ k < 255, (noisy u3 fa).coeff k = reduce ((u2.ring 16).coeff k + n k +
        d0 * (u2.ring 10).coeff (k + 1) + d1 * (u2.ring 11).coeff (k + 1) -
        g0 * (u2.ring 0).coeff (k + 1) - g1 * (u2.ring 1).coeff (k + 1)))

/-- R185: with reduced extra term `n`, a bit-0 coefficient decodes to 0 iff `n` is in `[-832, 832]`, and a bit-1
coefficient to -1664 iff `n` is in `[-832, 831]`. The product of two ternary rings is at most 256 in magnitude. -/
def Obligations.DecisionMargin : Prop :=
  (∀ n : Int, Canonical n →
    (RingVec.decideSymbol (reduce (0 + n)) = 0 ↔ -832 ≤ n ∧ n ≤ 832) ∧
    (RingVec.decideSymbol (reduce (-1664 + n)) = -1664 ↔ -832 ≤ n ∧ n ≤ 831)) ∧
  (∀ a b : RingVec, a.IsTernary → b.IsTernary → ∀ k < 256, -256 ≤ (a.mul b).coeff k ∧ (a.mul b).coeff k ≤ 256)

/-! ### The message codec -/

/-- R200, R201: MENC writes bit `7 - j` of byte `p` as -1664 or 0 at index `8p + j`, and 0 from index `8L` on. A length
above 32 is refused at submission (`SubmissionRefusesOrAccepts`); latched all the same, it ends so here too, with no
coefficient written: the model's choice, log entry 3. -/
def Obligations.MencEncodesMessage : Prop :=
  ∀ (s : State) (rd : RegNum) (len : Nat),
    (len ≤ 32 → ∃ t, exec (.menc rd len) s = .next t ∧ Completed t ∧ Frame [rd] false false false s t ∧
      ∀ p < 32, ∀ j < 8, (t.ring rd).coeff (8 * p + j) =
        if p < len ∧ (s.msgByte p).getLsbD (7 - j) = true then -1664 else 0) ∧
    (32 < len → exec (.menc rd len) s = .next { s with
      phase := .idle, drawbuf := [], done := true, err := true, errcode := if s.err then s.errcode else .tooLong })

/-- R202, R203: MDEC writes to MSG the bytes before the first 0x00 or 0xFF byte, their number to DEC_LEN, and 0x00 to
the rest of MSG. Bit `7 - j` of byte `p` is 1 iff the coefficient at `8p + j` is exactly -1664. -/
def Obligations.MdecDecodesMessage : Prop :=
  ∀ (s : State) (rs1 : RegNum), ∃ (t : State) (B : Nat → Byte),
    exec (.mdec rs1) s = .next t ∧ Completed t ∧ Frame [] false true false s t ∧
    (∀ p < 32, ∀ j < 8, (B p).getLsbD (7 - j) = decide ((s.ring rs1).coeff (8 * p + j) = -1664)) ∧
    t.decLen.toNat ≤ 32 ∧
    (∀ p < t.decLen.toNat, t.msgByte p = B p ∧ B p ≠ 0x00 ∧ B p ≠ 0xFF) ∧
    (t.decLen.toNat < 32 → B t.decLen.toNat = 0x00 ∨ B t.decLen.toNat = 0xFF) ∧
    (∀ p < 32, t.decLen.toNat ≤ p → t.msgByte p = 0x00)

/-- R204: decoding an encoded byte sequence of at most 32 bytes gives its bytes before the first 0x00 or 0xFF, so all
of them when it holds neither. -/
def Obligations.CodecRoundTrip : Prop :=
  ∀ bytes : List Byte, bytes.length ≤ 32 →
    (RingVec.ofBytes (fun p => bytes.getD p 0) bytes.length).toBytes =
      bytes.takeWhile (fun b => b ≠ 0x00 ∧ b ≠ 0xFF)

/-! ### The register block -/

/-- R62, R64, R68: every transaction completes in its one step, and offsets that differ in their low two bits only are
the same register. -/
def Obligations.TransactionsCompleteAndIgnoreLowBits : Prop :=
  (∀ (s : State) (tx : Transaction) (ts : List Turn), s.turns = .host tx :: ts → ∃ t, step s = .next t) ∧
  (∀ (off off' : Offset), off.toNat / 4 = off'.toNat / 4 →
    ∀ s : State, hostRead off s = hostRead off' s ∧ ∀ v, hostWrite off v s = hostWrite off' v s)

/-- R71: a window read returns the sign-extended coefficient of RR[WIN_SEL], and changes nothing else. -/
def Obligations.WindowReadsCoefficient : Prop :=
  ∀ (s : State) (off : Offset) (ts : List Turn) (i : Nat), i < 256 → off.toNat / 4 = 0x200 + i →
    s.turns = .host (.read off) :: ts → s.rst = false → s.phase = .idle →
    step s = .next { s with turns := ts, readData := some (BitVec.ofInt 32 ((s.ring s.winSel).coeff i)) }

/-- R72: a window write of a canonical value stores it in the one coefficient; any other value is refused with E_RANGE
and changes no coefficient. -/
def Obligations.WindowWritesCanonicalOnly : Prop :=
  ∀ (s : State) (off : Offset) (v : Word) (ts : List Turn) (i : Nat), i < 256 → off.toNat / 4 = 0x200 + i →
    s.turns = .host (.write off v) :: ts → s.rst = false → s.phase = .idle →
    (Canonical v.toInt → ∃ rr, step s = .next { s with turns := ts, rr := rr } ∧
      ∀ (r : RegNum) (k : Nat), k < 256 → rr[r].coeff k =
        if r = s.winSel ∧ k = i then v.toInt else (s.ring r).coeff k) ∧
    (¬Canonical v.toInt → step s = .next { s with
      turns := ts, err := true, errcode := if s.err then s.errcode else .range })

/-- R39, R73: MSGw reads as its four bytes, the lowest in the low bits, and a write sets those four bytes only. -/
def Obligations.MessageBufferAccess : Prop :=
  ∀ (s : State) (off : Offset) (ts : List Turn) (w : Nat), w < 8 → off.toNat / 4 = 8 + w → s.rst = false →
    s.phase = .idle →
    (s.turns = .host (.read off) :: ts → ∃ d : Word, step s = .next { s with turns := ts, readData := some d } ∧
      ∀ b < 4, d.extractLsb' (8 * b) 8 = s.msgByte (4 * w + b)) ∧
    (∀ v : Word, s.turns = .host (.write off v) :: ts → ∃ t : State,
      step s = .next t ∧ t = { s with turns := ts, msg := t.msg } ∧
      ∀ p < 32, t.msgByte p = if p / 4 = w then v.extractLsb' (8 * (p % 4)) 8 else s.msgByte p)

/-- R74: while BUSY, every access to the data group raises E_BUSY; a read returns 0 and a write changes nothing. -/
def Obligations.BusyLocksDataGroup : Prop :=
  ∀ (s : State) (off : Offset) (ts : List Turn),
    ((4 ≤ off.toNat / 4 ∧ off.toNat / 4 ≤ 15) ∨ (0x200 ≤ off.toNat / 4 ∧ off.toNat / 4 ≤ 0x2FF)) →
    s.rst = false → s.phase = .busy →
    (s.turns = .host (.read off) :: ts → step s = .next { s with
      turns := ts, readData := some 0, err := true, errcode := if s.err then s.errcode else .busy }) ∧
    (∀ v : Word, s.turns = .host (.write off v) :: ts → step s = .next { s with
      turns := ts, err := true, errcode := if s.err then s.errcode else .busy })

/-- R65: in every phase a reserved offset reads 0 and a write to it is ignored, and CMD reads 0; writes to ID are
ignored, and so, when not BUSY, are writes to SCALAR_OUT and DEC_LEN. None raises an error. -/
def Obligations.ReservedAndReadOnlyOffsets : Prop :=
  ∀ (s : State) (off : Offset) (ts : List Turn), s.rst = false →
    let k := off.toNat / 4
    let reserved := (0x10 ≤ k ∧ k ≤ 0x1FF) ∨ (0x300 ≤ k ∧ k ≤ 0x3FF)
    (s.turns = .host (.read off) :: ts → reserved ∨ k = 3 →
      step s = .next { s with turns := ts, readData := some 0 }) ∧
    (∀ v : Word, s.turns = .host (.write off v) :: ts →
      reserved ∨ k = 0 ∨ (s.phase = .idle ∧ (k = 5 ∨ k = 7)) → step s = .next { s with turns := ts })

/-- R31, R32, R256: ID reads its constant; CTRL keeps bits 0 and 1 of what is written, in every phase, reads them back
with zeros above, and a write leaves the latched `fa` alone. -/
def Obligations.IdAndCtrlAccess : Prop :=
  ∀ (s : State) (off : Offset) (ts : List Turn), s.rst = false →
    (off.toNat / 4 = 0 → s.turns = .host (.read off) :: ts →
      step s = .next { s with turns := ts, readData := some 0x54534B01 }) ∧
    (off.toNat / 4 = 1 → s.turns = .host (.read off) :: ts → ∃ d : Word,
      step s = .next { s with turns := ts, readData := some d } ∧
      d.toNat = (if s.fulladd then 1 else 0) + (if s.irqen then 2 else 0)) ∧
    (∀ v : Word, off.toNat / 4 = 1 → s.turns = .host (.write off v) :: ts →
      step s = .next { s with turns := ts, fulladd := v.getLsbD 0, irqen := v.getLsbD 1 })

/-- R33: STATUS reads BUSY, DONE, ERR in bits 0 to 2 and ERRCODE in bits 11:8, zeros elsewhere; a write clears DONE by
bit 1 and ERR with ERRCODE by bit 2, in every phase, and does nothing else. -/
def Obligations.StatusReadAndAcknowledge : Prop :=
  ∀ (s : State) (off : Offset) (ts : List Turn), s.rst = false → off.toNat / 4 = 2 →
    (s.turns = .host (.read off) :: ts → ∃ d : Word,
      step s = .next { s with turns := ts, readData := some d } ∧
      d.toNat = (if s.phase = .busy then 1 else 0) + (if s.done then 2 else 0) + (if s.err then 4 else 0) +
        256 * (match s.errcode with
          | .none => 0
          | .illegal => 1
          | .tooLong => 2
          | .range => 3
          | .busy => 4
          | .shape => 5)) ∧
    (∀ v : Word, s.turns = .host (.write off v) :: ts → step s = .next { s with
      turns := ts
      done := if v.getLsbD 1 then false else s.done
      err := if v.getLsbD 2 then false else s.err
      errcode := if v.getLsbD 2 then .none else s.errcode })

/-- R35 to R38: when not BUSY, SCALAR_IN, SCALAR_OUT, WIN_SEL and DEC_LEN read their contents with zeros in reserved
bits; a write of SCALAR_IN keeps all 32 bits, a write of WIN_SEL bits 4:0. -/
def Obligations.DataRegisterAccess : Prop :=
  ∀ (s : State) (off : Offset) (ts : List Turn), s.rst = false → s.phase = .idle →
    (s.turns = .host (.read off) :: ts → ∀ d : Word,
      (off.toNat / 4 = 4 ∧ d = s.scalarIn) ∨ (off.toNat / 4 = 5 ∧ d = s.scalarOut) ∨
      (off.toNat / 4 = 6 ∧ d.toNat = s.winSel.val) ∨ (off.toNat / 4 = 7 ∧ d.toNat = s.decLen.toNat) →
      step s = .next { s with turns := ts, readData := some d }) ∧
    (∀ v : Word, s.turns = .host (.write off v) :: ts →
      (off.toNat / 4 = 4 → step s = .next { s with turns := ts, scalarIn := v }) ∧
      (off.toNat / 4 = 6 → step s = .next { s with turns := ts, winSel := Fin.ofNat 32 v.toNat }))

/-! ### Errors, the interrupt and reset -/

/-- R223: the first error since ERR was cleared is the one recorded; a later one changes nothing; clearing ERR, by
writing 1 to STATUS bit 2, sets ERRCODE to 0. -/
def Obligations.FirstErrorIsKept : Prop :=
  ∀ (s : State) (code : ErrCode),
    (s.err = false → raiseError code s = { s with err := true, errcode := code }) ∧
    (s.err = true → raiseError code s = s) ∧
    ∀ v : Word, v.getLsbD 2 = true → (s.writeStatus v).err = false ∧ (s.writeStatus v).errcode = .none

/-- R226, R227: `irq` is high exactly when it is enabled and DONE or ERR is pending; completing any accepted command
with IRQEN set raises it, and acknowledging both bits lowers it; it is low at reset. -/
def Obligations.IrqFollowsPendingBits : Prop :=
  (∀ s : State, s.irq = true ↔ s.irqen = true ∧ (s.done = true ∨ s.err = true)) ∧
  (∀ (i : Instr) (s t : State), exec i s = .next t → t.irq = s.irqen) ∧
  (∀ s : State, (s.writeStatus 0x6).irq = false) ∧ State.reset.irq = false

/-- R50, R252: after reset every coefficient and every register reads 0, ID reads its constant, the engine is idle with
nothing latched and no draw held or needed, and `irq` and `ent_ready` are low. -/
def Obligations.ResetValues : Prop :=
  (∀ (r : RegNum) (k : Nat), (State.reset.ring r).coeff k = 0) ∧ (∀ p, State.reset.msgByte p = 0) ∧
  (∀ off : Offset, (hostRead off State.reset).readData =
    some (if off.toNat / 4 = 0 then 0x54534B01 else 0)) ∧
  State.reset.phase = .idle ∧ State.reset.cmd = none ∧ State.reset.fa = false ∧ State.reset.drawbuf = [] ∧
  State.reset.need = 0 ∧ State.reset.irq = false ∧ State.reset.entReady = false

/-- R250, R251: asserting `rst` in any state, a command in flight or not, gives every piece of the engine's state its
reset value; while it is asserted no transaction has an effect, reads return 0 but for ID, no offered code is consumed;
releasing it leaves the reset values. The temporaries' generation is unspecified; the inputs and the last read word are
not the engine's (log entries 4, 6, 7). -/
def Obligations.ResetAbortsAndHolds : Prop :=
  ∀ (s : State) (ts : List Turn),
    let held := fun (g : Nat) (level : Bool) (d : Option Word) =>
      ({ State.reset with
        tempGen := g, rst := level, entropy := s.entropy, turns := ts, readData := d } : State)
    (s.turns = .rst true :: ts → ∃ g, step s = .next (held g true s.readData)) ∧
    (s.rst = true →
      (s.turns = .rst false :: ts → ∃ g, step s = .next (held g false s.readData)) ∧
      (s.turns = .engine :: ts → ∃ g, step s = .next (held g true s.readData)) ∧
      (∀ off v, s.turns = .host (.write off v) :: ts → ∃ g, step s = .next (held g true s.readData)) ∧
      (∀ off, s.turns = .host (.read off) :: ts → ∃ g,
        step s = .next (held g true (some (if off.toNat / 4 = 0 then 0x54534B01 else 0)))))

/-! ### The entropy port -/

/-- R170: `ent_ready` is high exactly when the engine is busy and needs a draw; then, in the engine's turn, it consumes
the offered code: 0b00, 0b01, 0b11 give the draws 0, +1, -1; 0b10 is rejected. With no code offered it waits. -/
def Obligations.OfferedCodeIsConsumed : Prop :=
  ∀ (s : State), (s.entReady = true ↔ s.phase = .busy ∧ 0 < s.need) ∧
    (s.rst = false → s.turns = [] → s.phase = .busy → 0 < s.need →
      (s.entropy = [] → step s = .next s) ∧
      (∀ cs, s.entropy = 0b10 :: cs → step s = .next { s with entropy := cs }) ∧
      (∀ c v cs, (c, v) ∈ [((0b00 : Code), Draw.zero), (0b01, Draw.plusOne), (0b11, Draw.minusOne)] →
        s.entropy = c :: cs →
        step s = .next { s with entropy := cs, drawbuf := s.drawbuf ++ [v], need := s.need - 1 }))

/-- R170, R171: running through a list of offered codes of which no more are usable than are needed appends exactly the
usable ones to the draws, in order, and lowers the need by their number. -/
def Obligations.DrawsArriveInOrder : Prop :=
  ∀ (s : State) (codes rest : List Code), s.rst = false → s.turns = [] → s.phase = .busy →
    s.entropy = codes ++ rest → codes ≠ [] → (codes.dropLast.filterMap drawOfCode).length < s.need →
    core.run codes.length s = .next { s with
      entropy := rest
      drawbuf := s.drawbuf ++ codes.filterMap drawOfCode
      need := s.need - (codes.filterMap drawOfCode).length }

/-! ### Invariants and whole-machine rules -/

/-- The invariant holds at reset. -/
def Obligations.InvariantAtReset : Prop := State.reset.Inv

/-- R22, R33, R36, R38, R45, R250: every step keeps the invariant, from every state that has it. -/
def Obligations.StepKeepsInvariant : Prop := ∀ s t : State, s.Inv → step s = .next t → t.Inv

/-- R22: every ring is canonical at reset, and from any state whose rings are canonical every step, whatever the turn
and the command, leaves them canonical. -/
def Obligations.RingsStayCanonical : Prop :=
  State.reset.RingsCanonical ∧ ∀ s t : State, s.RingsCanonical → step s = .next t → t.RingsCanonical

/-- R62, R220: from every state with the invariant, every number of steps answers a next state: no error is fatal and
no transaction is refused. -/
def Obligations.RunsNeverStop : Prop := ∀ (s : State) (n : Nat), s.Inv → ∃ t, core.run n s = .next t ∧ t.Inv

/-- R45: the temporaries are never observable: states that differ in their generation only step to states that differ
in it only. The generation counter is the model's own (log entry 4). -/
def Obligations.TemporariesAreUnobservable : Prop :=
  ∀ (s t : State) (g : Nat), step s = .next t →
    ∃ t' g', step { s with tempGen := g } = .next t' ∧ t' = { t with tempGen := g' }
end

