-- ==== Sys2Proof/Laws/Ring.lean ====
section
/-! SUPPORT. What the ring operations do, coefficient by coefficient (R141 to R151, R181, R200). -/

namespace Sys2Proof

/-! ### reduce -/

theorem reduce_canonical (x : Int) : Canonical (reduce x) := by
  unfold reduce foldRemainder Config.span Config.maxMagnitude Canonical
  split
  · omega
  · split <;> omega

theorem reduce_emod (x : Int) : reduce x % 3329 = x % 3329 := by
  unfold reduce foldRemainder Config.span Config.maxMagnitude
  split
  · omega
  · split <;> omega

theorem reduce_isReduced (x : Int) : IsReduced (reduce x) x := ⟨reduce_canonical x, reduce_emod x⟩

/-- Two canonical values of one residue class are equal (R142). -/
theorem canonical_unique {x y : Int} (hx : Canonical x) (hy : Canonical y) (h : x % 3329 = y % 3329) : x = y := by
  unfold Canonical at *
  omega

theorem reduce_of_isReduced {y x : Int} (h : IsReduced y x) : reduce x = y :=
  canonical_unique (reduce_canonical x) h.1 ((reduce_emod x).trans h.2.symm)

theorem reduce_of_canonical {x : Int} (h : Canonical x) : reduce x = x := reduce_of_isReduced ⟨h, rfl⟩

theorem reduce_congr {x y : Int} (h : x % 3329 = y % 3329) : reduce x = reduce y :=
  reduce_of_isReduced ⟨reduce_canonical y, (reduce_emod y).trans h.symm⟩

/-- `reduce` may be taken of a summand first (R142). -/
theorem reduce_add_reduce (x y : Int) : reduce (x + reduce y) = reduce (x + y) :=
  reduce_congr (by rw [Int.add_emod, reduce_emod, ← Int.add_emod])

theorem reduce_reduce_add (x y : Int) : reduce (reduce x + y) = reduce (x + y) :=
  reduce_congr (by rw [Int.add_emod, reduce_emod, ← Int.add_emod])

theorem reduce_sub_reduce (x y : Int) : reduce (x - reduce y) = reduce (x - y) :=
  reduce_congr (by rw [Int.sub_emod, reduce_emod, ← Int.sub_emod])

/-- A canonical value fits 12 bits (R22). -/
theorem toInt_ofInt_of_canonical {x : Int} (h : Canonical x) : (BitVec.ofInt 12 x).toInt = x := by
  obtain ⟨h1, h2⟩ := h
  rw [BitVec.toInt_ofInt]
  exact Int.bmod_eq_of_le_mul_two (by omega) (by omega)

namespace RingVec

/-! ### Coefficients -/

theorem coeff_of_lt (v : RingVec) {k : Nat} (h : k < 256) : v.coeff k = v[k].toInt := by simp [coeff, h]

theorem coeff_of_ge (v : RingVec) {k : Nat} (h : 256 ≤ k) : v.coeff k = 0 := by simp [coeff, Nat.not_lt.mpr h]

theorem getElem_tabulate (f : Nat → Int) {k : Nat} (h : k < 256) : (tabulate f)[k] = BitVec.ofInt 12 (f k) := by
  simp [tabulate]

theorem coeff_tabulate_raw (f : Nat → Int) {k : Nat} (h : k < 256) :
    (tabulate f).coeff k = (BitVec.ofInt 12 (f k)).toInt := by
  rw [coeff_of_lt _ h, getElem_tabulate f h]

theorem coeff_tabulate (f : Nat → Int) {k : Nat} (h : k < 256) (hf : Canonical (f k)) :
    (tabulate f).coeff k = f k := by
  rw [coeff_tabulate_raw f h, toInt_ofInt_of_canonical hf]

/-- Two rings with the same coefficients are equal (R11). -/
theorem ext_coeff {a b : RingVec} (h : ∀ k < 256, a.coeff k = b.coeff k) : a = b := by
  apply Vector.ext
  intro k hk
  apply BitVec.eq_of_toInt_eq
  rw [← coeff_of_lt a hk, ← coeff_of_lt b hk, h k hk]

theorem tabulate_coeff (v : RingVec) : tabulate v.coeff = v := by
  apply Vector.ext
  intro k hk
  rw [getElem_tabulate _ hk, coeff_of_lt _ hk, BitVec.ofInt_toInt]

theorem isCanonical_tabulate {f : Nat → Int} (h : ∀ k < 256, Canonical (f k)) : (tabulate f).IsCanonical := by
  intro k hk
  rw [coeff_tabulate f hk (h k hk)]
  exact h k hk

theorem coeff_zero (k : Nat) : zero.coeff k = 0 := by
  by_cases h : k < 256
  · rw [zero, coeff_tabulate _ h (by decide)]
  · exact coeff_of_ge _ (Nat.not_lt.mp h)

theorem coeff_monomial {k i : Nat} {c : Int} (hi : i < 256) (hc : Canonical c) :
    (monomial k c).coeff i = if i = k then c else 0 := by
  refine coeff_tabulate _ hi ?_
  split
  · exact hc
  · decide

/-! ### Addition and subtraction (R144, R145) -/

theorem laneValue_of_ite {fa : Bool} {k : Nat} (hk : k < 256) {y x : Int}
    (h : y = if k < computedIndices fa then reduce x else 0) : LaneValue fa k y x := by
  subst h
  unfold computedIndices
  constructor
  · intro hc
    have : k < if fa = true then 256 else 255 := by
      rcases hc with hc | hc
      · split <;> omega
      · simp [hc, hk]
    rw [if_pos this]
    exact reduce_isReduced x
  · rintro ⟨hk', hfa⟩
    simp [hk', hfa]

theorem canonical_ite_reduce (p : Prop) [Decidable p] (x : Int) : Canonical (if p then reduce x else 0) := by
  split
  · exact reduce_canonical x
  · decide

theorem coeff_add (a b : RingVec) (fa : Bool) {k : Nat} (hk : k < 256) :
    (a.add b fa).coeff k = if k < computedIndices fa then reduce (a.coeff k + b.coeff k) else 0 :=
  coeff_tabulate _ hk (canonical_ite_reduce _ _)

theorem coeff_sub (a b : RingVec) (fa : Bool) {k : Nat} (hk : k < 256) :
    (a.sub b fa).coeff k = if k < computedIndices fa then reduce (a.coeff k - b.coeff k) else 0 :=
  coeff_tabulate _ hk (canonical_ite_reduce _ _)

theorem isCanonical_add (a b : RingVec) (fa : Bool) : (a.add b fa).IsCanonical :=
  isCanonical_tabulate fun _ _ => canonical_ite_reduce _ _

theorem isCanonical_sub (a b : RingVec) (fa : Bool) : (a.sub b fa).IsCanonical :=
  isCanonical_tabulate fun _ _ => canonical_ite_reduce _ _

theorem laneValue_add (a b : RingVec) (fa : Bool) {k : Nat} (hk : k < 256) :
    LaneValue fa k ((a.add b fa).coeff k) (a.coeff k + b.coeff k) :=
  laneValue_of_ite hk (coeff_add a b fa hk)

theorem laneValue_sub (a b : RingVec) (fa : Bool) {k : Nat} (hk : k < 256) :
    LaneValue fa k ((a.sub b fa).coeff k) (a.coeff k - b.coeff k) :=
  laneValue_of_ite hk (coeff_sub a b fa hk)

/-- A lane value may be taken of a congruent exact value. -/
theorem laneValue_congr {fa : Bool} {k : Nat} {y x x' : Int} (h : LaneValue fa k y x)
    (hx : k < 255 ∨ fa = true → x % 3329 = x' % 3329) : LaneValue fa k y x' :=
  ⟨fun hc => ⟨(h.1 hc).1, (h.1 hc).2.trans (hx hc)⟩, h.2⟩

/-! ### Rotation (R148) -/

theorem canonical_neg {x : Int} (h : Canonical x) : Canonical (-x) := by
  unfold Canonical at *
  omega

theorem canonical_rotatedTerm {v : Nat → Int} (h : ∀ k < 256, Canonical (v k)) (shift : Nat) {d : Nat}
    (hd : d < 256) : Canonical (rotatedTerm v shift d) := by
  unfold rotatedTerm
  split
  · exact h d hd
  · split
    · exact canonical_neg (h _ (Nat.mod_lt _ (by omega)))
    · exact h _ (Nat.mod_lt _ (by omega))

theorem coeff_rotateRight {v : RingVec} (h : v.IsCanonical) (shift : Nat) {d : Nat} (hd : d < 256) :
    (v.rotateRight shift).coeff d = rotatedTerm v.coeff shift d :=
  coeff_tabulate _ hd (canonical_rotatedTerm h shift hd)

theorem isCanonical_rotateRight {v : RingVec} (h : v.IsCanonical) (shift : Nat) : (v.rotateRight shift).IsCanonical :=
  isCanonical_tabulate fun _ hk => canonical_rotatedTerm h shift hk

/-! ### Multiplication (R150) -/

theorem coeff_mul (a b : RingVec) {k : Nat} (hk : k < 256) :
    (a.mul b).coeff k = reduce (mulAcc a.coeff b.coeff 256 k) :=
  coeff_tabulate _ hk (reduce_canonical _)

theorem isCanonical_mul (a b : RingVec) : (a.mul b).IsCanonical :=
  isCanonical_tabulate fun _ _ => reduce_canonical _

/-- The accumulation with its reductions is congruent to the plain sum of the rotated terms (R150, R142). -/
theorem mulAcc_emod (a b : Nat → Int) (n d : Nat) :
    mulAcc a b n d % 3329 = (∑ i ∈ Finset.range n, rotatedTerm (fun j => a j * b i) i d) % 3329 := by
  induction n with
  | zero => simp [mulAcc]
  | succ n ih =>
    rw [mulAcc, reduce_emod, Finset.sum_range_succ, Int.add_emod, ih, reduce_emod, ← Int.add_emod]

/-! ### Threshold and codec (R181, R200) -/

theorem coeff_threshold (v : RingVec) {k : Nat} (hk : k < 256) :
    v.threshold.coeff k = decideSymbol (v.coeff k) := by
  refine coeff_tabulate _ hk ?_
  unfold decideSymbol
  split <;> decide

theorem isCanonical_threshold (v : RingVec) : v.threshold.IsCanonical := by
  refine isCanonical_tabulate fun k _ => ?_
  unfold decideSymbol
  split <;> decide

theorem coeff_ofBytes (s : Nat → Byte) (len : Nat) {k : Nat} (hk : k < 256) :
    (ofBytes s len).coeff k =
      if k / 8 < len ∧ (s (k / 8)).getLsbD (7 - k % 8) = true then -1664 else 0 := by
  refine coeff_tabulate _ hk ?_
  split <;> decide

theorem isCanonical_ofBytes (s : Nat → Byte) (len : Nat) : (ofBytes s len).IsCanonical := by
  refine isCanonical_tabulate fun k _ => ?_
  split <;> decide

end RingVec

namespace Machine

theorem Draw.canonical (d : Draw) : Canonical d.toInt := by cases d <;> decide

theorem coeff_drawRow (s : State) (n : Nat) {k : Nat} (hk : k < 256) :
    (drawRow s n).coeff k = (s.drawbuf.getD (256 * n + k) .zero).toInt :=
  RingVec.coeff_tabulate _ hk (Draw.canonical _)

theorem isCanonical_drawRow (s : State) (n : Nat) : (drawRow s n).IsCanonical :=
  RingVec.isCanonical_tabulate fun _ _ => Draw.canonical _

/-! ### Ring registers -/

@[simp] theorem ring_setRing_self (s : State) (r : RegNum) (v : RingVec) : (s.setRing r v).ring r = v := by
  simp [State.ring, State.setRing]

theorem ring_setRing_of_ne (s : State) {r q : RegNum} (v : RingVec) (h : q ≠ r) :
    (s.setRing r v).ring q = s.ring q := by
  have : r.val ≠ q.val := fun e => h (Fin.ext e.symm)
  simp [State.ring, State.setRing, Vector.getElem_set_ne, this]

theorem ring_setRing (s : State) (r q : RegNum) (v : RingVec) :
    (s.setRing r v).ring q = if q = r then v else s.ring q := by
  by_cases h : q = r
  · rw [if_pos h, h, ring_setRing_self]
  · rw [if_neg h, ring_setRing_of_ne s v h]

/-- Reading a ring register depends on the register file only. -/
theorem ring_congr {s t : State} (h : s.rr = t.rr) (r : RegNum) : s.ring r = t.ring r := by
  simp [State.ring, h]

@[simp] theorem ring_complete (s : State) (r : RegNum) : (complete s).ring r = s.ring r := rfl

@[simp] theorem ring_disturbTemporaries (s : State) (r : RegNum) : (disturbTemporaries s).ring r = s.ring r := rfl

end Machine

end Sys2Proof
end

