-- ==== Sys2Proof/Laws/State.lean ====
section
/-! SUPPORT. What each update of the state does to each of its fields. -/

namespace Sys2Proof.Machine

variable (s : State)

/-! One ring register (R11). -/
@[simp] theorem State.setRing_rr (r : RegNum) (v : RingVec) : (s.setRing r v).rr = s.rr.set r v := rfl
@[simp] theorem State.setRing_fulladd (r : RegNum) (v : RingVec) : (s.setRing r v).fulladd = s.fulladd := rfl
@[simp] theorem State.setRing_irqen (r : RegNum) (v : RingVec) : (s.setRing r v).irqen = s.irqen := rfl
@[simp] theorem State.setRing_phase (r : RegNum) (v : RingVec) : (s.setRing r v).phase = s.phase := rfl
@[simp] theorem State.setRing_done (r : RegNum) (v : RingVec) : (s.setRing r v).done = s.done := rfl
@[simp] theorem State.setRing_err (r : RegNum) (v : RingVec) : (s.setRing r v).err = s.err := rfl
@[simp] theorem State.setRing_errcode (r : RegNum) (v : RingVec) : (s.setRing r v).errcode = s.errcode := rfl
@[simp] theorem State.setRing_scalarIn (r : RegNum) (v : RingVec) : (s.setRing r v).scalarIn = s.scalarIn := rfl
@[simp] theorem State.setRing_scalarOut (r : RegNum) (v : RingVec) : (s.setRing r v).scalarOut = s.scalarOut := rfl
@[simp] theorem State.setRing_winSel (r : RegNum) (v : RingVec) : (s.setRing r v).winSel = s.winSel := rfl
@[simp] theorem State.setRing_decLen (r : RegNum) (v : RingVec) : (s.setRing r v).decLen = s.decLen := rfl
@[simp] theorem State.setRing_msg (r : RegNum) (v : RingVec) : (s.setRing r v).msg = s.msg := rfl
@[simp] theorem State.setRing_cmd (r : RegNum) (v : RingVec) : (s.setRing r v).cmd = s.cmd := rfl
@[simp] theorem State.setRing_fa (r : RegNum) (v : RingVec) : (s.setRing r v).fa = s.fa := rfl
@[simp] theorem State.setRing_drawbuf (r : RegNum) (v : RingVec) : (s.setRing r v).drawbuf = s.drawbuf := rfl
@[simp] theorem State.setRing_need (r : RegNum) (v : RingVec) : (s.setRing r v).need = s.need := rfl
@[simp] theorem State.setRing_tempGen (r : RegNum) (v : RingVec) : (s.setRing r v).tempGen = s.tempGen := rfl
@[simp] theorem State.setRing_rst (r : RegNum) (v : RingVec) : (s.setRing r v).rst = s.rst := rfl
@[simp] theorem State.setRing_entropy (r : RegNum) (v : RingVec) : (s.setRing r v).entropy = s.entropy := rfl
@[simp] theorem State.setRing_turns (r : RegNum) (v : RingVec) : (s.setRing r v).turns = s.turns := rfl
@[simp] theorem State.setRing_readData (r : RegNum) (v : RingVec) : (s.setRing r v).readData = s.readData := rfl

/-! One coefficient (R72). -/
@[simp] theorem State.setCoeff_rr (r : RegNum) (k : Fin 256) (v : Coeff) : (s.setCoeff r k v).rr = s.rr.set r ((s.ring r).set k.val v k.isLt) := rfl
@[simp] theorem State.setCoeff_fulladd (r : RegNum) (k : Fin 256) (v : Coeff) : (s.setCoeff r k v).fulladd = s.fulladd := rfl
@[simp] theorem State.setCoeff_irqen (r : RegNum) (k : Fin 256) (v : Coeff) : (s.setCoeff r k v).irqen = s.irqen := rfl
@[simp] theorem State.setCoeff_phase (r : RegNum) (k : Fin 256) (v : Coeff) : (s.setCoeff r k v).phase = s.phase := rfl
@[simp] theorem State.setCoeff_done (r : RegNum) (k : Fin 256) (v : Coeff) : (s.setCoeff r k v).done = s.done := rfl
@[simp] theorem State.setCoeff_err (r : RegNum) (k : Fin 256) (v : Coeff) : (s.setCoeff r k v).err = s.err := rfl
@[simp] theorem State.setCoeff_errcode (r : RegNum) (k : Fin 256) (v : Coeff) : (s.setCoeff r k v).errcode = s.errcode := rfl
@[simp] theorem State.setCoeff_scalarIn (r : RegNum) (k : Fin 256) (v : Coeff) : (s.setCoeff r k v).scalarIn = s.scalarIn := rfl
@[simp] theorem State.setCoeff_scalarOut (r : RegNum) (k : Fin 256) (v : Coeff) : (s.setCoeff r k v).scalarOut = s.scalarOut := rfl
@[simp] theorem State.setCoeff_winSel (r : RegNum) (k : Fin 256) (v : Coeff) : (s.setCoeff r k v).winSel = s.winSel := rfl
@[simp] theorem State.setCoeff_decLen (r : RegNum) (k : Fin 256) (v : Coeff) : (s.setCoeff r k v).decLen = s.decLen := rfl
@[simp] theorem State.setCoeff_msg (r : RegNum) (k : Fin 256) (v : Coeff) : (s.setCoeff r k v).msg = s.msg := rfl
@[simp] theorem State.setCoeff_cmd (r : RegNum) (k : Fin 256) (v : Coeff) : (s.setCoeff r k v).cmd = s.cmd := rfl
@[simp] theorem State.setCoeff_fa (r : RegNum) (k : Fin 256) (v : Coeff) : (s.setCoeff r k v).fa = s.fa := rfl
@[simp] theorem State.setCoeff_drawbuf (r : RegNum) (k : Fin 256) (v : Coeff) : (s.setCoeff r k v).drawbuf = s.drawbuf := rfl
@[simp] theorem State.setCoeff_need (r : RegNum) (k : Fin 256) (v : Coeff) : (s.setCoeff r k v).need = s.need := rfl
@[simp] theorem State.setCoeff_tempGen (r : RegNum) (k : Fin 256) (v : Coeff) : (s.setCoeff r k v).tempGen = s.tempGen := rfl
@[simp] theorem State.setCoeff_rst (r : RegNum) (k : Fin 256) (v : Coeff) : (s.setCoeff r k v).rst = s.rst := rfl
@[simp] theorem State.setCoeff_entropy (r : RegNum) (k : Fin 256) (v : Coeff) : (s.setCoeff r k v).entropy = s.entropy := rfl
@[simp] theorem State.setCoeff_turns (r : RegNum) (k : Fin 256) (v : Coeff) : (s.setCoeff r k v).turns = s.turns := rfl
@[simp] theorem State.setCoeff_readData (r : RegNum) (k : Fin 256) (v : Coeff) : (s.setCoeff r k v).readData = s.readData := rfl

/-! Four message bytes (R73). -/
@[simp] theorem State.setMsgWord_rr (w : Fin 8) (v : Word) : (s.setMsgWord w v).rr = s.rr := by
  unfold State.setMsgWord; rfl
@[simp] theorem State.setMsgWord_fulladd (w : Fin 8) (v : Word) : (s.setMsgWord w v).fulladd = s.fulladd := by
  unfold State.setMsgWord; rfl
@[simp] theorem State.setMsgWord_irqen (w : Fin 8) (v : Word) : (s.setMsgWord w v).irqen = s.irqen := by
  unfold State.setMsgWord; rfl
@[simp] theorem State.setMsgWord_phase (w : Fin 8) (v : Word) : (s.setMsgWord w v).phase = s.phase := by
  unfold State.setMsgWord; rfl
@[simp] theorem State.setMsgWord_done (w : Fin 8) (v : Word) : (s.setMsgWord w v).done = s.done := by
  unfold State.setMsgWord; rfl
@[simp] theorem State.setMsgWord_err (w : Fin 8) (v : Word) : (s.setMsgWord w v).err = s.err := by
  unfold State.setMsgWord; rfl
@[simp] theorem State.setMsgWord_errcode (w : Fin 8) (v : Word) : (s.setMsgWord w v).errcode = s.errcode := by
  unfold State.setMsgWord; rfl
@[simp] theorem State.setMsgWord_scalarIn (w : Fin 8) (v : Word) : (s.setMsgWord w v).scalarIn = s.scalarIn := by
  unfold State.setMsgWord; rfl
@[simp] theorem State.setMsgWord_scalarOut (w : Fin 8) (v : Word) : (s.setMsgWord w v).scalarOut = s.scalarOut := by
  unfold State.setMsgWord; rfl
@[simp] theorem State.setMsgWord_winSel (w : Fin 8) (v : Word) : (s.setMsgWord w v).winSel = s.winSel := by
  unfold State.setMsgWord; rfl
@[simp] theorem State.setMsgWord_decLen (w : Fin 8) (v : Word) : (s.setMsgWord w v).decLen = s.decLen := by
  unfold State.setMsgWord; rfl
@[simp] theorem State.setMsgWord_cmd (w : Fin 8) (v : Word) : (s.setMsgWord w v).cmd = s.cmd := by
  unfold State.setMsgWord; rfl
@[simp] theorem State.setMsgWord_fa (w : Fin 8) (v : Word) : (s.setMsgWord w v).fa = s.fa := by
  unfold State.setMsgWord; rfl
@[simp] theorem State.setMsgWord_drawbuf (w : Fin 8) (v : Word) : (s.setMsgWord w v).drawbuf = s.drawbuf := by
  unfold State.setMsgWord; rfl
@[simp] theorem State.setMsgWord_need (w : Fin 8) (v : Word) : (s.setMsgWord w v).need = s.need := by
  unfold State.setMsgWord; rfl
@[simp] theorem State.setMsgWord_tempGen (w : Fin 8) (v : Word) : (s.setMsgWord w v).tempGen = s.tempGen := by
  unfold State.setMsgWord; rfl
@[simp] theorem State.setMsgWord_rst (w : Fin 8) (v : Word) : (s.setMsgWord w v).rst = s.rst := by
  unfold State.setMsgWord; rfl
@[simp] theorem State.setMsgWord_entropy (w : Fin 8) (v : Word) : (s.setMsgWord w v).entropy = s.entropy := by
  unfold State.setMsgWord; rfl
@[simp] theorem State.setMsgWord_turns (w : Fin 8) (v : Word) : (s.setMsgWord w v).turns = s.turns := by
  unfold State.setMsgWord; rfl
@[simp] theorem State.setMsgWord_readData (w : Fin 8) (v : Word) : (s.setMsgWord w v).readData = s.readData := by
  unfold State.setMsgWord; rfl

/-! MSG and DEC_LEN (R203). -/
@[simp] theorem State.setMessage_rr (out : List Byte) : (s.setMessage out).rr = s.rr := by
  unfold State.setMessage; rfl
@[simp] theorem State.setMessage_fulladd (out : List Byte) : (s.setMessage out).fulladd = s.fulladd := by
  unfold State.setMessage; rfl
@[simp] theorem State.setMessage_irqen (out : List Byte) : (s.setMessage out).irqen = s.irqen := by
  unfold State.setMessage; rfl
@[simp] theorem State.setMessage_phase (out : List Byte) : (s.setMessage out).phase = s.phase := by
  unfold State.setMessage; rfl
@[simp] theorem State.setMessage_done (out : List Byte) : (s.setMessage out).done = s.done := by
  unfold State.setMessage; rfl
@[simp] theorem State.setMessage_err (out : List Byte) : (s.setMessage out).err = s.err := by
  unfold State.setMessage; rfl
@[simp] theorem State.setMessage_errcode (out : List Byte) : (s.setMessage out).errcode = s.errcode := by
  unfold State.setMessage; rfl
@[simp] theorem State.setMessage_scalarIn (out : List Byte) : (s.setMessage out).scalarIn = s.scalarIn := by
  unfold State.setMessage; rfl
@[simp] theorem State.setMessage_scalarOut (out : List Byte) : (s.setMessage out).scalarOut = s.scalarOut := by
  unfold State.setMessage; rfl
@[simp] theorem State.setMessage_winSel (out : List Byte) : (s.setMessage out).winSel = s.winSel := by
  unfold State.setMessage; rfl
@[simp] theorem State.setMessage_decLen (out : List Byte) : (s.setMessage out).decLen = BitVec.ofNat 6 out.length := by
  unfold State.setMessage; rfl
@[simp] theorem State.setMessage_msg (out : List Byte) : (s.setMessage out).msg = messageOf fun p => out.getD p 0x00 := by
  unfold State.setMessage; rfl
@[simp] theorem State.setMessage_cmd (out : List Byte) : (s.setMessage out).cmd = s.cmd := by
  unfold State.setMessage; rfl
@[simp] theorem State.setMessage_fa (out : List Byte) : (s.setMessage out).fa = s.fa := by
  unfold State.setMessage; rfl
@[simp] theorem State.setMessage_drawbuf (out : List Byte) : (s.setMessage out).drawbuf = s.drawbuf := by
  unfold State.setMessage; rfl
@[simp] theorem State.setMessage_need (out : List Byte) : (s.setMessage out).need = s.need := by
  unfold State.setMessage; rfl
@[simp] theorem State.setMessage_tempGen (out : List Byte) : (s.setMessage out).tempGen = s.tempGen := by
  unfold State.setMessage; rfl
@[simp] theorem State.setMessage_rst (out : List Byte) : (s.setMessage out).rst = s.rst := by
  unfold State.setMessage; rfl
@[simp] theorem State.setMessage_entropy (out : List Byte) : (s.setMessage out).entropy = s.entropy := by
  unfold State.setMessage; rfl
@[simp] theorem State.setMessage_turns (out : List Byte) : (s.setMessage out).turns = s.turns := by
  unfold State.setMessage; rfl
@[simp] theorem State.setMessage_readData (out : List Byte) : (s.setMessage out).readData = s.readData := by
  unfold State.setMessage; rfl

/-! CTRL (R32). -/
@[simp] theorem State.writeCtrl_rr (v : Word) : (s.writeCtrl v).rr = s.rr := rfl
@[simp] theorem State.writeCtrl_fulladd (v : Word) : (s.writeCtrl v).fulladd = v.getLsbD 0 := rfl
@[simp] theorem State.writeCtrl_irqen (v : Word) : (s.writeCtrl v).irqen = v.getLsbD 1 := rfl
@[simp] theorem State.writeCtrl_phase (v : Word) : (s.writeCtrl v).phase = s.phase := rfl
@[simp] theorem State.writeCtrl_done (v : Word) : (s.writeCtrl v).done = s.done := rfl
@[simp] theorem State.writeCtrl_err (v : Word) : (s.writeCtrl v).err = s.err := rfl
@[simp] theorem State.writeCtrl_errcode (v : Word) : (s.writeCtrl v).errcode = s.errcode := rfl
@[simp] theorem State.writeCtrl_scalarIn (v : Word) : (s.writeCtrl v).scalarIn = s.scalarIn := rfl
@[simp] theorem State.writeCtrl_scalarOut (v : Word) : (s.writeCtrl v).scalarOut = s.scalarOut := rfl
@[simp] theorem State.writeCtrl_winSel (v : Word) : (s.writeCtrl v).winSel = s.winSel := rfl
@[simp] theorem State.writeCtrl_decLen (v : Word) : (s.writeCtrl v).decLen = s.decLen := rfl
@[simp] theorem State.writeCtrl_msg (v : Word) : (s.writeCtrl v).msg = s.msg := rfl
@[simp] theorem State.writeCtrl_cmd (v : Word) : (s.writeCtrl v).cmd = s.cmd := rfl
@[simp] theorem State.writeCtrl_fa (v : Word) : (s.writeCtrl v).fa = s.fa := rfl
@[simp] theorem State.writeCtrl_drawbuf (v : Word) : (s.writeCtrl v).drawbuf = s.drawbuf := rfl
@[simp] theorem State.writeCtrl_need (v : Word) : (s.writeCtrl v).need = s.need := rfl
@[simp] theorem State.writeCtrl_tempGen (v : Word) : (s.writeCtrl v).tempGen = s.tempGen := rfl
@[simp] theorem State.writeCtrl_rst (v : Word) : (s.writeCtrl v).rst = s.rst := rfl
@[simp] theorem State.writeCtrl_entropy (v : Word) : (s.writeCtrl v).entropy = s.entropy := rfl
@[simp] theorem State.writeCtrl_turns (v : Word) : (s.writeCtrl v).turns = s.turns := rfl
@[simp] theorem State.writeCtrl_readData (v : Word) : (s.writeCtrl v).readData = s.readData := rfl

/-! STATUS (R33). -/
@[simp] theorem State.writeStatus_rr (v : Word) : (s.writeStatus v).rr = s.rr := rfl
@[simp] theorem State.writeStatus_fulladd (v : Word) : (s.writeStatus v).fulladd = s.fulladd := rfl
@[simp] theorem State.writeStatus_irqen (v : Word) : (s.writeStatus v).irqen = s.irqen := rfl
@[simp] theorem State.writeStatus_phase (v : Word) : (s.writeStatus v).phase = s.phase := rfl
@[simp] theorem State.writeStatus_done (v : Word) : (s.writeStatus v).done = (s.done && !v.getLsbD 1) := rfl
@[simp] theorem State.writeStatus_err (v : Word) : (s.writeStatus v).err = (s.err && !v.getLsbD 2) := rfl
@[simp] theorem State.writeStatus_errcode (v : Word) : (s.writeStatus v).errcode = if v.getLsbD 2 then .none else s.errcode := rfl
@[simp] theorem State.writeStatus_scalarIn (v : Word) : (s.writeStatus v).scalarIn = s.scalarIn := rfl
@[simp] theorem State.writeStatus_scalarOut (v : Word) : (s.writeStatus v).scalarOut = s.scalarOut := rfl
@[simp] theorem State.writeStatus_winSel (v : Word) : (s.writeStatus v).winSel = s.winSel := rfl
@[simp] theorem State.writeStatus_decLen (v : Word) : (s.writeStatus v).decLen = s.decLen := rfl
@[simp] theorem State.writeStatus_msg (v : Word) : (s.writeStatus v).msg = s.msg := rfl
@[simp] theorem State.writeStatus_cmd (v : Word) : (s.writeStatus v).cmd = s.cmd := rfl
@[simp] theorem State.writeStatus_fa (v : Word) : (s.writeStatus v).fa = s.fa := rfl
@[simp] theorem State.writeStatus_drawbuf (v : Word) : (s.writeStatus v).drawbuf = s.drawbuf := rfl
@[simp] theorem State.writeStatus_need (v : Word) : (s.writeStatus v).need = s.need := rfl
@[simp] theorem State.writeStatus_tempGen (v : Word) : (s.writeStatus v).tempGen = s.tempGen := rfl
@[simp] theorem State.writeStatus_rst (v : Word) : (s.writeStatus v).rst = s.rst := rfl
@[simp] theorem State.writeStatus_entropy (v : Word) : (s.writeStatus v).entropy = s.entropy := rfl
@[simp] theorem State.writeStatus_turns (v : Word) : (s.writeStatus v).turns = s.turns := rfl
@[simp] theorem State.writeStatus_readData (v : Word) : (s.writeStatus v).readData = s.readData := rfl

/-! Recording an error (R223). -/
@[simp] theorem raiseError_rr (code : ErrCode) : (raiseError code s).rr = s.rr := rfl
@[simp] theorem raiseError_fulladd (code : ErrCode) : (raiseError code s).fulladd = s.fulladd := rfl
@[simp] theorem raiseError_irqen (code : ErrCode) : (raiseError code s).irqen = s.irqen := rfl
@[simp] theorem raiseError_phase (code : ErrCode) : (raiseError code s).phase = s.phase := rfl
@[simp] theorem raiseError_done (code : ErrCode) : (raiseError code s).done = s.done := rfl
@[simp] theorem raiseError_err (code : ErrCode) : (raiseError code s).err = true := rfl
@[simp] theorem raiseError_errcode (code : ErrCode) : (raiseError code s).errcode = if s.err then s.errcode else code := rfl
@[simp] theorem raiseError_scalarIn (code : ErrCode) : (raiseError code s).scalarIn = s.scalarIn := rfl
@[simp] theorem raiseError_scalarOut (code : ErrCode) : (raiseError code s).scalarOut = s.scalarOut := rfl
@[simp] theorem raiseError_winSel (code : ErrCode) : (raiseError code s).winSel = s.winSel := rfl
@[simp] theorem raiseError_decLen (code : ErrCode) : (raiseError code s).decLen = s.decLen := rfl
@[simp] theorem raiseError_msg (code : ErrCode) : (raiseError code s).msg = s.msg := rfl
@[simp] theorem raiseError_cmd (code : ErrCode) : (raiseError code s).cmd = s.cmd := rfl
@[simp] theorem raiseError_fa (code : ErrCode) : (raiseError code s).fa = s.fa := rfl
@[simp] theorem raiseError_drawbuf (code : ErrCode) : (raiseError code s).drawbuf = s.drawbuf := rfl
@[simp] theorem raiseError_need (code : ErrCode) : (raiseError code s).need = s.need := rfl
@[simp] theorem raiseError_tempGen (code : ErrCode) : (raiseError code s).tempGen = s.tempGen := rfl
@[simp] theorem raiseError_rst (code : ErrCode) : (raiseError code s).rst = s.rst := rfl
@[simp] theorem raiseError_entropy (code : ErrCode) : (raiseError code s).entropy = s.entropy := rfl
@[simp] theorem raiseError_turns (code : ErrCode) : (raiseError code s).turns = s.turns := rfl
@[simp] theorem raiseError_readData (code : ErrCode) : (raiseError code s).readData = s.readData := rfl

/-! Acceptance (R121). -/
@[simp] theorem accept_rr (v : Word) (n : Nat) : (accept v n s).rr = s.rr := rfl
@[simp] theorem accept_fulladd (v : Word) (n : Nat) : (accept v n s).fulladd = s.fulladd := rfl
@[simp] theorem accept_irqen (v : Word) (n : Nat) : (accept v n s).irqen = s.irqen := rfl
@[simp] theorem accept_phase (v : Word) (n : Nat) : (accept v n s).phase = .busy := rfl
@[simp] theorem accept_done (v : Word) (n : Nat) : (accept v n s).done = false := rfl
@[simp] theorem accept_err (v : Word) (n : Nat) : (accept v n s).err = s.err := rfl
@[simp] theorem accept_errcode (v : Word) (n : Nat) : (accept v n s).errcode = s.errcode := rfl
@[simp] theorem accept_scalarIn (v : Word) (n : Nat) : (accept v n s).scalarIn = s.scalarIn := rfl
@[simp] theorem accept_scalarOut (v : Word) (n : Nat) : (accept v n s).scalarOut = s.scalarOut := rfl
@[simp] theorem accept_winSel (v : Word) (n : Nat) : (accept v n s).winSel = s.winSel := rfl
@[simp] theorem accept_decLen (v : Word) (n : Nat) : (accept v n s).decLen = s.decLen := rfl
@[simp] theorem accept_msg (v : Word) (n : Nat) : (accept v n s).msg = s.msg := rfl
@[simp] theorem accept_cmd (v : Word) (n : Nat) : (accept v n s).cmd = some v := rfl
@[simp] theorem accept_fa (v : Word) (n : Nat) : (accept v n s).fa = s.fulladd := rfl
@[simp] theorem accept_drawbuf (v : Word) (n : Nat) : (accept v n s).drawbuf = [] := rfl
@[simp] theorem accept_need (v : Word) (n : Nat) : (accept v n s).need = n := rfl
@[simp] theorem accept_tempGen (v : Word) (n : Nat) : (accept v n s).tempGen = s.tempGen := rfl
@[simp] theorem accept_rst (v : Word) (n : Nat) : (accept v n s).rst = s.rst := rfl
@[simp] theorem accept_entropy (v : Word) (n : Nat) : (accept v n s).entropy = s.entropy := rfl
@[simp] theorem accept_turns (v : Word) (n : Nat) : (accept v n s).turns = s.turns := rfl
@[simp] theorem accept_readData (v : Word) (n : Nat) : (accept v n s).readData = s.readData := rfl

/-! Refusal (R122). -/
@[simp] theorem refuse_rr (code : ErrCode) : (refuse code s).rr = s.rr := rfl
@[simp] theorem refuse_fulladd (code : ErrCode) : (refuse code s).fulladd = s.fulladd := rfl
@[simp] theorem refuse_irqen (code : ErrCode) : (refuse code s).irqen = s.irqen := rfl
@[simp] theorem refuse_phase (code : ErrCode) : (refuse code s).phase = s.phase := rfl
@[simp] theorem refuse_done (code : ErrCode) : (refuse code s).done = true := rfl
@[simp] theorem refuse_err (code : ErrCode) : (refuse code s).err = true := rfl
@[simp] theorem refuse_errcode (code : ErrCode) : (refuse code s).errcode = if s.err then s.errcode else code := rfl
@[simp] theorem refuse_scalarIn (code : ErrCode) : (refuse code s).scalarIn = s.scalarIn := rfl
@[simp] theorem refuse_scalarOut (code : ErrCode) : (refuse code s).scalarOut = s.scalarOut := rfl
@[simp] theorem refuse_winSel (code : ErrCode) : (refuse code s).winSel = s.winSel := rfl
@[simp] theorem refuse_decLen (code : ErrCode) : (refuse code s).decLen = s.decLen := rfl
@[simp] theorem refuse_msg (code : ErrCode) : (refuse code s).msg = s.msg := rfl
@[simp] theorem refuse_cmd (code : ErrCode) : (refuse code s).cmd = s.cmd := rfl
@[simp] theorem refuse_fa (code : ErrCode) : (refuse code s).fa = s.fa := rfl
@[simp] theorem refuse_drawbuf (code : ErrCode) : (refuse code s).drawbuf = s.drawbuf := rfl
@[simp] theorem refuse_need (code : ErrCode) : (refuse code s).need = s.need := rfl
@[simp] theorem refuse_tempGen (code : ErrCode) : (refuse code s).tempGen = s.tempGen := rfl
@[simp] theorem refuse_rst (code : ErrCode) : (refuse code s).rst = s.rst := rfl
@[simp] theorem refuse_entropy (code : ErrCode) : (refuse code s).entropy = s.entropy := rfl
@[simp] theorem refuse_turns (code : ErrCode) : (refuse code s).turns = s.turns := rfl
@[simp] theorem refuse_readData (code : ErrCode) : (refuse code s).readData = s.readData := rfl

/-! Refusal of a latched word. -/
@[simp] theorem refuseLatched_rr (code : ErrCode) : (refuseLatched code s).rr = s.rr := rfl
@[simp] theorem refuseLatched_fulladd (code : ErrCode) : (refuseLatched code s).fulladd = s.fulladd := rfl
@[simp] theorem refuseLatched_irqen (code : ErrCode) : (refuseLatched code s).irqen = s.irqen := rfl
@[simp] theorem refuseLatched_phase (code : ErrCode) : (refuseLatched code s).phase = .idle := rfl
@[simp] theorem refuseLatched_done (code : ErrCode) : (refuseLatched code s).done = true := rfl
@[simp] theorem refuseLatched_err (code : ErrCode) : (refuseLatched code s).err = true := rfl
@[simp] theorem refuseLatched_errcode (code : ErrCode) : (refuseLatched code s).errcode = if s.err then s.errcode else code := rfl
@[simp] theorem refuseLatched_scalarIn (code : ErrCode) : (refuseLatched code s).scalarIn = s.scalarIn := rfl
@[simp] theorem refuseLatched_scalarOut (code : ErrCode) : (refuseLatched code s).scalarOut = s.scalarOut := rfl
@[simp] theorem refuseLatched_winSel (code : ErrCode) : (refuseLatched code s).winSel = s.winSel := rfl
@[simp] theorem refuseLatched_decLen (code : ErrCode) : (refuseLatched code s).decLen = s.decLen := rfl
@[simp] theorem refuseLatched_msg (code : ErrCode) : (refuseLatched code s).msg = s.msg := rfl
@[simp] theorem refuseLatched_cmd (code : ErrCode) : (refuseLatched code s).cmd = s.cmd := rfl
@[simp] theorem refuseLatched_fa (code : ErrCode) : (refuseLatched code s).fa = s.fa := rfl
@[simp] theorem refuseLatched_drawbuf (code : ErrCode) : (refuseLatched code s).drawbuf = [] := rfl
@[simp] theorem refuseLatched_need (code : ErrCode) : (refuseLatched code s).need = s.need := rfl
@[simp] theorem refuseLatched_tempGen (code : ErrCode) : (refuseLatched code s).tempGen = s.tempGen := rfl
@[simp] theorem refuseLatched_rst (code : ErrCode) : (refuseLatched code s).rst = s.rst := rfl
@[simp] theorem refuseLatched_entropy (code : ErrCode) : (refuseLatched code s).entropy = s.entropy := rfl
@[simp] theorem refuseLatched_turns (code : ErrCode) : (refuseLatched code s).turns = s.turns := rfl
@[simp] theorem refuseLatched_readData (code : ErrCode) : (refuseLatched code s).readData = s.readData := rfl

/-! The end of a completion (R123). -/
@[simp] theorem complete_rr : (complete s).rr = s.rr := rfl
@[simp] theorem complete_fulladd : (complete s).fulladd = s.fulladd := rfl
@[simp] theorem complete_irqen : (complete s).irqen = s.irqen := rfl
@[simp] theorem complete_phase : (complete s).phase = .idle := rfl
@[simp] theorem complete_done : (complete s).done = true := rfl
@[simp] theorem complete_err : (complete s).err = s.err := rfl
@[simp] theorem complete_errcode : (complete s).errcode = s.errcode := rfl
@[simp] theorem complete_scalarIn : (complete s).scalarIn = s.scalarIn := rfl
@[simp] theorem complete_scalarOut : (complete s).scalarOut = s.scalarOut := rfl
@[simp] theorem complete_winSel : (complete s).winSel = s.winSel := rfl
@[simp] theorem complete_decLen : (complete s).decLen = s.decLen := rfl
@[simp] theorem complete_msg : (complete s).msg = s.msg := rfl
@[simp] theorem complete_cmd : (complete s).cmd = s.cmd := rfl
@[simp] theorem complete_fa : (complete s).fa = s.fa := rfl
@[simp] theorem complete_drawbuf : (complete s).drawbuf = [] := rfl
@[simp] theorem complete_need : (complete s).need = s.need := rfl
@[simp] theorem complete_tempGen : (complete s).tempGen = s.tempGen := rfl
@[simp] theorem complete_rst : (complete s).rst = s.rst := rfl
@[simp] theorem complete_entropy : (complete s).entropy = s.entropy := rfl
@[simp] theorem complete_turns : (complete s).turns = s.turns := rfl
@[simp] theorem complete_readData : (complete s).readData = s.readData := rfl

/-! The temporaries (R45). -/
@[simp] theorem disturbTemporaries_rr : (disturbTemporaries s).rr = s.rr := rfl
@[simp] theorem disturbTemporaries_fulladd : (disturbTemporaries s).fulladd = s.fulladd := rfl
@[simp] theorem disturbTemporaries_irqen : (disturbTemporaries s).irqen = s.irqen := rfl
@[simp] theorem disturbTemporaries_phase : (disturbTemporaries s).phase = s.phase := rfl
@[simp] theorem disturbTemporaries_done : (disturbTemporaries s).done = s.done := rfl
@[simp] theorem disturbTemporaries_err : (disturbTemporaries s).err = s.err := rfl
@[simp] theorem disturbTemporaries_errcode : (disturbTemporaries s).errcode = s.errcode := rfl
@[simp] theorem disturbTemporaries_scalarIn : (disturbTemporaries s).scalarIn = s.scalarIn := rfl
@[simp] theorem disturbTemporaries_scalarOut : (disturbTemporaries s).scalarOut = s.scalarOut := rfl
@[simp] theorem disturbTemporaries_winSel : (disturbTemporaries s).winSel = s.winSel := rfl
@[simp] theorem disturbTemporaries_decLen : (disturbTemporaries s).decLen = s.decLen := rfl
@[simp] theorem disturbTemporaries_msg : (disturbTemporaries s).msg = s.msg := rfl
@[simp] theorem disturbTemporaries_cmd : (disturbTemporaries s).cmd = s.cmd := rfl
@[simp] theorem disturbTemporaries_fa : (disturbTemporaries s).fa = s.fa := rfl
@[simp] theorem disturbTemporaries_drawbuf : (disturbTemporaries s).drawbuf = s.drawbuf := rfl
@[simp] theorem disturbTemporaries_need : (disturbTemporaries s).need = s.need := rfl
@[simp] theorem disturbTemporaries_tempGen : (disturbTemporaries s).tempGen = s.tempGen + 1 := rfl
@[simp] theorem disturbTemporaries_rst : (disturbTemporaries s).rst = s.rst := rfl
@[simp] theorem disturbTemporaries_entropy : (disturbTemporaries s).entropy = s.entropy := rfl
@[simp] theorem disturbTemporaries_turns : (disturbTemporaries s).turns = s.turns := rfl
@[simp] theorem disturbTemporaries_readData : (disturbTemporaries s).readData = s.readData := rfl

/-! Taking a turn off the list (R78). -/
@[simp] theorem afterTurn_rr : (afterTurn s).rr = s.rr := rfl
@[simp] theorem afterTurn_fulladd : (afterTurn s).fulladd = s.fulladd := rfl
@[simp] theorem afterTurn_irqen : (afterTurn s).irqen = s.irqen := rfl
@[simp] theorem afterTurn_phase : (afterTurn s).phase = s.phase := rfl
@[simp] theorem afterTurn_done : (afterTurn s).done = s.done := rfl
@[simp] theorem afterTurn_err : (afterTurn s).err = s.err := rfl
@[simp] theorem afterTurn_errcode : (afterTurn s).errcode = s.errcode := rfl
@[simp] theorem afterTurn_scalarIn : (afterTurn s).scalarIn = s.scalarIn := rfl
@[simp] theorem afterTurn_scalarOut : (afterTurn s).scalarOut = s.scalarOut := rfl
@[simp] theorem afterTurn_winSel : (afterTurn s).winSel = s.winSel := rfl
@[simp] theorem afterTurn_decLen : (afterTurn s).decLen = s.decLen := rfl
@[simp] theorem afterTurn_msg : (afterTurn s).msg = s.msg := rfl
@[simp] theorem afterTurn_cmd : (afterTurn s).cmd = s.cmd := rfl
@[simp] theorem afterTurn_fa : (afterTurn s).fa = s.fa := rfl
@[simp] theorem afterTurn_drawbuf : (afterTurn s).drawbuf = s.drawbuf := rfl
@[simp] theorem afterTurn_need : (afterTurn s).need = s.need := rfl
@[simp] theorem afterTurn_tempGen : (afterTurn s).tempGen = s.tempGen := rfl
@[simp] theorem afterTurn_rst : (afterTurn s).rst = s.rst := rfl
@[simp] theorem afterTurn_entropy : (afterTurn s).entropy = s.entropy := rfl
@[simp] theorem afterTurn_turns : (afterTurn s).turns = s.turns.tail := rfl
@[simp] theorem afterTurn_readData : (afterTurn s).readData = s.readData := rfl

/-! Reset (R250). -/
@[simp] theorem applyReset_rr : (applyReset s).rr = State.reset.rr := rfl
@[simp] theorem applyReset_fulladd : (applyReset s).fulladd = State.reset.fulladd := rfl
@[simp] theorem applyReset_irqen : (applyReset s).irqen = State.reset.irqen := rfl
@[simp] theorem applyReset_phase : (applyReset s).phase = State.reset.phase := rfl
@[simp] theorem applyReset_done : (applyReset s).done = State.reset.done := rfl
@[simp] theorem applyReset_err : (applyReset s).err = State.reset.err := rfl
@[simp] theorem applyReset_errcode : (applyReset s).errcode = State.reset.errcode := rfl
@[simp] theorem applyReset_scalarIn : (applyReset s).scalarIn = State.reset.scalarIn := rfl
@[simp] theorem applyReset_scalarOut : (applyReset s).scalarOut = State.reset.scalarOut := rfl
@[simp] theorem applyReset_winSel : (applyReset s).winSel = State.reset.winSel := rfl
@[simp] theorem applyReset_decLen : (applyReset s).decLen = State.reset.decLen := rfl
@[simp] theorem applyReset_msg : (applyReset s).msg = State.reset.msg := rfl
@[simp] theorem applyReset_cmd : (applyReset s).cmd = State.reset.cmd := rfl
@[simp] theorem applyReset_fa : (applyReset s).fa = State.reset.fa := rfl
@[simp] theorem applyReset_drawbuf : (applyReset s).drawbuf = State.reset.drawbuf := rfl
@[simp] theorem applyReset_need : (applyReset s).need = State.reset.need := rfl
@[simp] theorem applyReset_tempGen : (applyReset s).tempGen = s.tempGen + 1 := rfl
@[simp] theorem applyReset_rst : (applyReset s).rst = s.rst := rfl
@[simp] theorem applyReset_entropy : (applyReset s).entropy = s.entropy := rfl
@[simp] theorem applyReset_turns : (applyReset s).turns = s.turns := rfl
@[simp] theorem applyReset_readData : (applyReset s).readData = s.readData := rfl

end Sys2Proof.Machine
end

