-- ==== Sys2Proof/Laws/Exec.lean ====
section
/-! SUPPORT. What a completion can do: it always answers a next state (R123), and its frame. -/

namespace Sys2Proof.Machine

/-! ### Completion (R123) -/

theorem completed_complete (s : State) : Completed (complete s) := ⟨rfl, rfl, rfl⟩

/-- Writing one ring and completing leaves everything else (R154). -/
theorem frame_setRing (s : State) (r : RegNum) (v : RingVec) :
    Frame [r] false false false s (complete (s.setRing r v)) where
  rr := fun q hq => by
    rw [ring_complete, ring_setRing_of_ne s v (by simpa using hq)]
  ctrl := ⟨rfl, rfl⟩
  err := ⟨rfl, rfl⟩
  scalarIn := rfl
  scalarOut := fun _ => rfl
  winSel := rfl
  msg := fun _ => ⟨rfl, rfl⟩
  latched := ⟨rfl, rfl, rfl⟩
  temps := fun _ => rfl
  inputs := ⟨rfl, rfl, rfl⟩
  readData := rfl

/-- A frame over a state that differs from `s` in listed rings only, with the temporaries disturbed. -/
theorem frame_of_rr (s t : State) (rings : List RegNum) (ht : t = { s with rr := t.rr })
    (hr : ∀ r, r ∉ rings → t.ring r = s.ring r) : Frame rings false false true s (complete (disturbTemporaries t)) where
  rr := hr
  ctrl := by rw [ht]; exact ⟨rfl, rfl⟩
  err := by rw [ht]; exact ⟨rfl, rfl⟩
  scalarIn := by rw [ht]; rfl
  scalarOut := fun _ => by rw [ht]; rfl
  winSel := by rw [ht]; rfl
  msg := fun _ => by rw [ht]; exact ⟨rfl, rfl⟩
  latched := by rw [ht]; exact ⟨rfl, rfl, rfl⟩
  temps := fun h => by cases h
  inputs := by rw [ht]; exact ⟨rfl, rfl, rfl⟩
  readData := by rw [ht]; rfl

/-- Writing one ring changes the register file only. -/
theorem setRing_eq_rr (s : State) (r : RegNum) (v : RingVec) :
    s.setRing r v = { s with rr := (s.setRing r v).rr } := rfl

/-- A state that differs from `s` in its rings only still does after one more ring is written. -/
theorem setRing_of_rr {s t : State} (ht : t = { s with rr := t.rr }) (r : RegNum) (v : RingVec) :
    t.setRing r v = { s with rr := (t.setRing r v).rr } := by
  rw [ht]
  rfl

theorem fillRows_of_rr {s u : State} : ∀ (l : List RegNum) (n : Nat) {t : State}, t = { s with rr := t.rr } →
    fillRows u l n t = { s with rr := (fillRows u l n t).rr }
  | [], _, _, ht => ht
  | r :: rs, n, _, ht => fillRows_of_rr rs (n + 1) (setRing_of_rr ht r (drawRow u n))

/-- Filling rows leaves a register that is not listed. -/
theorem ring_fillRows_of_notMem (u : State) : ∀ (l : List RegNum) (n : Nat) (t : State) {r : RegNum}, r ∉ l →
    (fillRows u l n t).ring r = t.ring r
  | [], _, _, _, _ => rfl
  | q :: qs, n, t, r, h => by
    rw [List.mem_cons, not_or] at h
    rw [fillRows, ring_fillRows_of_notMem u qs (n + 1) _ h.2, ring_setRing_of_ne _ _ h.1]

/-- Filling rows gives the listed register number `j` row `n + j` of the draws (R172). -/
theorem ring_fillRows (u : State) : ∀ (l : List RegNum) (n : Nat) (t : State) (_ : l.Nodup) (j : Nat)
    (hj : j < l.length), (fillRows u l n t).ring l[j] = drawRow u (n + j)
  | [], _, _, _, j, hj => by simp at hj
  | q :: qs, n, t, hd, 0, _ => by
    rw [List.nodup_cons] at hd
    rw [fillRows, List.getElem_cons_zero, ring_fillRows_of_notMem u qs (n + 1) _ hd.1, ring_setRing_self, Nat.add_zero]
  | q :: qs, n, t, hd, j + 1, hj => by
    rw [List.nodup_cons] at hd
    have hj' : j < qs.length := by simpa using hj
    rw [fillRows, List.getElem_cons_succ, ring_fillRows u qs (n + 1) _ hd.2 j hj']
    congr 1
    omega

/-- Every command that submission accepts completes: `exec` is `complete` of a state that it writes (R123). -/
theorem exec_eq_complete (i : Instr) (s : State) (h : submissionError i = none) :
    ∃ t, exec i s = .next (complete t) := by
  cases i with
  | menc rd len =>
    have hl : lengthTooLong len = false := by
      cases hc : lengthTooLong len
      · rfl
      · simp [submissionError, hc] at h
    exact ⟨_, by rw [exec, execMenc, hl]; rfl⟩
  | _ => exact ⟨_, rfl⟩

/-- A command that submission refuses ends as a refusal (R122). -/
theorem exec_eq_refuseLatched (i : Instr) (s : State) {code : ErrCode} (h : submissionError i = some code) :
    exec i s = .next (refuseLatched code s) := by
  cases i with
  | menc rd len =>
    cases hc : lengthTooLong len
    · simp [submissionError, hc] at h
    · simp only [submissionError, hc, if_true, Option.some.injEq] at h
      rw [exec, execMenc, hc, if_pos rfl, h]
  | _ => cases h

/-- No command can fail at completion (R120, R222). -/
theorem exec_next (i : Instr) (s : State) : ∃ t, exec i s = .next t := by
  cases h : submissionError i with
  | none =>
    obtain ⟨t, ht⟩ := exec_eq_complete i s h
    exact ⟨_, ht⟩
  | some code => exact ⟨_, exec_eq_refuseLatched i s h⟩

/-- After a completion the engine is idle, DONE is set and no draw is held (R123). -/
theorem exec_completed {i : Instr} {s t : State} (h : exec i s = .next t) : Completed t := by
  cases hc : submissionError i with
  | none =>
    obtain ⟨u, hu⟩ := exec_eq_complete i s hc
    rw [hu] at h
    cases h
    exact completed_complete u
  | some code =>
    rw [exec_eq_refuseLatched i s hc] at h
    cases h
    exact ⟨rfl, rfl, rfl⟩

end Sys2Proof.Machine
end

