-- ==== Sys2Proof/Laws/Step.lean ====
section
/-! SUPPORT. What a step can do, said once for each kind of turn (R62, R78, R123, R170, R250). -/

namespace Sys2Proof.Machine

variable {s : State}

/-! ### Whose turn it is -/

theorem step_host {tx : Transaction} {ts : List Turn} (h : s.turns = .host tx :: ts) :
    step s = .next (runTransaction tx { s with turns := ts }) := by
  simp [step, turnOf, afterTurn, h, runTurn]

theorem step_rst {level : Bool} {ts : List Turn} (h : s.turns = .rst level :: ts) :
    step s = .next (setRst level { s with turns := ts }) := by
  simp [step, turnOf, afterTurn, h, runTurn]

theorem step_engine (h : s.turns = [] ∨ s.turns.head? = some .engine) :
    step s = engineTurn { s with turns := s.turns.tail } := by
  rcases h with h | h
  · simp [step, turnOf, afterTurn, h, runTurn]
  · cases ht : s.turns with
    | nil => simp [ht] at h
    | cons t ts =>
      have : t = .engine := by simpa [ht] using h
      simp [step, turnOf, afterTurn, ht, this, runTurn]

/-! ### Runs -/

theorem run_zero (s : State) : core.run 0 s = .next s := rfl

/-- A run takes its first step and goes on. -/
theorem run_succ {t : State} (n : Nat) (h : step s = .next t) : core.run (n + 1) s = core.run n t := by
  simp [Host.Core.run, core, h]

/-! ### The engine's turn -/

theorem engineTurn_rst (h : s.rst = true) : engineTurn s = .next (applyReset s) := by simp [engineTurn, h]

theorem engineTurn_idle (hr : s.rst = false) (h : s.phase = .idle) : engineTurn s = .next s := by
  simp [engineTurn, hr, h]

theorem engineTurn_draw (hr : s.rst = false) (h : s.phase = .busy) (hn : 0 < s.need) :
    engineTurn s = .next (takeCode s) := by
  simp [engineTurn, hr, h, hn]

theorem engineTurn_complete (hr : s.rst = false) (h : s.phase = .busy) (hn : s.need = 0) {w : Word} {i : Instr}
    (hc : s.cmd = some w) (hd : decode w = .ok i) : engineTurn s = exec i s := by
  simp [engineTurn, hr, h, hn, completion, hc, hd]

/-- Everything that accepting codes can do: nothing is offered, the code is rejected, or it is a draw (R170). -/
theorem takeCode_cases (s : State) :
    (s.entropy = [] ∧ takeCode s = s) ∨
    (∃ c cs, s.entropy = c :: cs ∧ drawOfCode c = none ∧ takeCode s = { s with entropy := cs }) ∨
    (∃ c cs v, s.entropy = c :: cs ∧ drawOfCode c = some v ∧
      takeCode s = { s with entropy := cs, drawbuf := s.drawbuf ++ [v], need := s.need - 1 }) := by
  cases he : s.entropy with
  | nil => exact .inl ⟨rfl, by simp [takeCode, he]⟩
  | cons c cs =>
    cases hv : drawOfCode c with
    | none => exact .inr (.inl ⟨c, cs, rfl, hv, by simp [takeCode, he, acceptCode, hv]⟩)
    | some v => exact .inr (.inr ⟨c, cs, v, rfl, hv, by simp [takeCode, he, acceptCode, hv]⟩)

/-- Exactly the code 0b10 is rejected (R170). -/
theorem drawOfCode_eq_none (c : Code) : drawOfCode c = none ↔ c = 0b10 := by
  revert c
  decide

/-- Everything that the engine's turn can do when it answers a next state. -/
theorem engineTurn_cases {t : State} (h : engineTurn s = .next t) :
    (s.rst = true ∧ t = applyReset s) ∨
    (s.rst = false ∧ s.phase = .idle ∧ t = s) ∨
    (s.rst = false ∧ s.phase = .busy ∧ 0 < s.need ∧ t = takeCode s) ∨
    (s.rst = false ∧ s.phase = .busy ∧ s.need = 0 ∧ ∃ w i, s.cmd = some w ∧ decode w = .ok i ∧ exec i s = .next t) ∨
    (s.rst = false ∧ s.phase = .busy ∧ s.need = 0 ∧ ∃ w e, s.cmd = some w ∧ decode w = .error e ∧
      t = refuseLatched .illegal s) := by
  cases hr : s.rst with
  | true =>
    rw [engineTurn_rst hr] at h
    cases h
    exact .inl ⟨rfl, rfl⟩
  | false =>
    cases hp : s.phase with
    | idle =>
      rw [engineTurn_idle hr hp] at h
      cases h
      exact .inr (.inl ⟨rfl, rfl, rfl⟩)
    | busy =>
      rcases Nat.eq_zero_or_pos s.need with hn | hn
      · simp only [engineTurn, hr, hp, hn, completion] at h
        cases hc : s.cmd with
        | none => simp [hc] at h
        | some w =>
          cases hd : decode w with
          | ok i =>
            simp only [hc, hd] at h
            exact .inr (.inr (.inr (.inl ⟨rfl, rfl, hn, w, i, rfl, hd, by simpa using h⟩)))
          | error e =>
            simp only [hc, hd] at h
            exact .inr (.inr (.inr (.inr ⟨rfl, rfl, hn, w, e, rfl, hd, by simpa using h.symm⟩)))
      · rw [engineTurn_draw hr hp hn] at h
        cases h
        exact .inr (.inr (.inl ⟨rfl, rfl, hn, rfl⟩))

/-! ### A transaction -/

/-- Everything that submitting a word can do (R120). -/
theorem submit_cases (v : Word) (s : State) :
    (s.phase = .busy ∧ submit v s = raiseError .busy s) ∨
    (s.phase = .idle ∧ (∃ e, decode v = .error e) ∧ submit v s = refuse .illegal s) ∨
    (s.phase = .idle ∧ ∃ i code, decode v = .ok i ∧ submissionError i = some code ∧ submit v s = refuse code s) ∨
    (s.phase = .idle ∧ ∃ i, decode v = .ok i ∧ submissionError i = none ∧ submit v s = accept v (drawsNeeded i) s) := by
  cases hp : s.phase with
  | busy => exact .inl ⟨rfl, by simp [submit, State.isBusy, hp]⟩
  | idle =>
    refine .inr ?_
    cases hd : decode v with
    | error e => exact .inl ⟨rfl, ⟨e, rfl⟩, by simp [submit, State.isBusy, hp, hd]⟩
    | ok i =>
      refine .inr ?_
      cases he : submissionError i with
      | some code => exact .inl ⟨rfl, i, code, rfl, he, by simp [submit, State.isBusy, hp, hd, he]⟩
      | none => exact .inr ⟨rfl, i, rfl, he, by simp [submit, State.isBusy, hp, hd, he]⟩

/-- Submission refuses a decoded command with E_TOOLONG or not at all (R120). -/
theorem submissionError_eq {i : Instr} {code : ErrCode} (h : submissionError i = some code) : code = .tooLong := by
  cases i with
  | menc rd len =>
    cases hc : lengthTooLong len
    · simp [submissionError, hc] at h
    · simpa [submissionError, hc, eq_comm] using h
  | _ => cases h

theorem hostRead_rst (off : Offset) (h : s.rst = true) : hostRead off s =
    { applyReset s with readData := some (if hostReg off = .id then Config.idValue else 0) } := by
  simp [hostRead, h]

theorem hostRead_locked (off : Offset) (h : s.rst = false) (hl : locked (hostReg off) s = true) :
    hostRead off s = { raiseError .busy s with readData := some 0 } := by
  simp [hostRead, h, hl]

theorem hostRead_open (off : Offset) (h : s.rst = false) (hl : locked (hostReg off) s = false) :
    hostRead off s = { s with readData := some (registerWord s (hostReg off)) } := by
  simp [hostRead, h, hl]

theorem hostWrite_rst (off : Offset) (v : Word) (h : s.rst = true) : hostWrite off v s = applyReset s := by
  simp [hostWrite, h]

theorem hostWrite_locked (off : Offset) (v : Word) (h : s.rst = false) (hl : locked (hostReg off) s = true) :
    hostWrite off v s = raiseError .busy s := by
  simp [hostWrite, h, hl]

theorem hostWrite_open (off : Offset) (v : Word) (h : s.rst = false) (hl : locked (hostReg off) s = false) :
    hostWrite off v s = writeRegister (hostReg off) v s := by
  simp [hostWrite, h, hl]

theorem locked_idle (r : HostReg) (h : s.phase = .idle) : locked r s = false := by
  simp [locked, State.isBusy, h]

theorem locked_busy (r : HostReg) (h : s.phase = .busy) : locked r s = r.inDataGroup := by
  simp [locked, State.isBusy, h]

/-! ### Reset -/

theorem setRst_assert (s : State) : setRst true s = { applyReset s with rst := true } := rfl

theorem setRst_release (h : s.rst = true) : setRst false s = { applyReset s with rst := false } := by
  simp [setRst, h]

theorem setRst_idle (h : s.rst = false) : setRst false s = s := by simp [setRst, h]

/-! ### Offset decode (R64) -/

theorem hostReg_congr {off off' : Offset} (h : off.toNat / 4 = off'.toNat / 4) : hostReg off = hostReg off' := by
  unfold hostReg
  simp only [h]

/-- From word index 8 on, an offset addresses the message buffer, the window or nothing (R30, R64). -/
theorem hostReg_of_ge {off : Offset} (h : 8 ≤ off.toNat / 4) : hostReg off =
    if h : 8 ≤ off.toNat / 4 ∧ off.toNat / 4 < 16 then .msg ⟨off.toNat / 4 - 8, by omega⟩
    else if h : 0x200 ≤ off.toNat / 4 ∧ off.toNat / 4 < 0x300 then .win ⟨off.toNat / 4 - 0x200, by omega⟩
    else .reserved := by
  have low : ∀ j < 8, off.toNat / 4 ≠ j := fun j hj => by omega
  unfold hostReg
  simp [low]

theorem hostReg_msg {off : Offset} {w : Nat} (hw : w < 8) (h : off.toNat / 4 = 8 + w) :
    hostReg off = .msg ⟨w, hw⟩ := by
  rw [hostReg_of_ge (by omega), dif_pos ⟨by omega, by omega⟩]
  exact congrArg HostReg.msg (Fin.ext (by simp [h]))

theorem hostReg_win {off : Offset} {i : Nat} (hi : i < 256) (h : off.toNat / 4 = 0x200 + i) :
    hostReg off = .win ⟨i, hi⟩ := by
  rw [hostReg_of_ge (by omega), dif_neg fun c => absurd c.2 (by omega), dif_pos ⟨by omega, by omega⟩]
  exact congrArg HostReg.win (Fin.ext (by simp [h]))

theorem hostReg_reserved {off : Offset} (h : (0x10 ≤ off.toNat / 4 ∧ off.toNat / 4 < 0x200) ∨ 0x300 ≤ off.toNat / 4) :
    hostReg off = .reserved := by
  have noMsg : ¬(8 ≤ off.toNat / 4 ∧ off.toNat / 4 < 16) := by omega
  have noWin : ¬(0x200 ≤ off.toNat / 4 ∧ off.toNat / 4 < 0x300) := by omega
  rw [hostReg_of_ge (by omega), dif_neg noMsg, dif_neg noWin]

/-- The data group is the word indices 4 to 15 and 0x200 to 0x2FF (R30, R74). -/
theorem inDataGroup_hostReg (off : Offset) : (hostReg off).inDataGroup = true ↔
    (4 ≤ off.toNat / 4 ∧ off.toNat / 4 ≤ 15) ∨ (0x200 ≤ off.toNat / 4 ∧ off.toNat / 4 ≤ 0x2FF) := by
  unfold hostReg
  dsimp only
  repeat' split
  all_goals simp only [HostReg.inDataGroup]
  all_goals
    simp
    omega

theorem hostReg_id {off : Offset} (h : off.toNat / 4 = 0) : hostReg off = .id := by
  unfold hostReg
  simp [h]

theorem hostReg_ctrl {off : Offset} (h : off.toNat / 4 = 1) : hostReg off = .ctrl := by
  unfold hostReg
  simp [h]

theorem hostReg_status {off : Offset} (h : off.toNat / 4 = 2) : hostReg off = .status := by
  unfold hostReg
  simp [h]

theorem hostReg_cmd {off : Offset} (h : off.toNat / 4 = 3) : hostReg off = .cmd := by
  unfold hostReg
  simp [h]

theorem hostReg_scalarIn {off : Offset} (h : off.toNat / 4 = 4) : hostReg off = .scalarIn := by
  unfold hostReg
  simp [h]

theorem hostReg_scalarOut {off : Offset} (h : off.toNat / 4 = 5) : hostReg off = .scalarOut := by
  unfold hostReg
  simp [h]

theorem hostReg_winSel {off : Offset} (h : off.toNat / 4 = 6) : hostReg off = .winSel := by
  unfold hostReg
  simp [h]

theorem hostReg_decLen {off : Offset} (h : off.toNat / 4 = 7) : hostReg off = .decLen := by
  unfold hostReg
  simp [h]

theorem hostReg_ne_id {off : Offset} (h : off.toNat / 4 ≠ 0) : hostReg off ≠ .id := by
  unfold hostReg
  dsimp only
  rw [if_neg h]
  repeat' split
  all_goals simp

/-! ### The step of a transaction, with the turn taken off the list -/

/-- What a register reads as does not depend on the turns. -/
theorem registerWord_turns (s : State) (ts : List Turn) (r : HostReg) :
    registerWord { s with turns := ts } r = registerWord s r := by
  cases r <;> rfl

theorem locked_turns (s : State) (ts : List Turn) (r : HostReg) : locked r { s with turns := ts } = locked r s := rfl

theorem step_read_open {off : Offset} {ts : List Turn} (ht : s.turns = .host (.read off) :: ts) (hr : s.rst = false)
    (hl : locked (hostReg off) s = false) :
    step s = .next { s with turns := ts, readData := some (registerWord s (hostReg off)) } := by
  rw [step_host ht, runTransaction, hostRead_open (s := { s with turns := ts }) off hr hl, registerWord_turns]

theorem step_read_locked {off : Offset} {ts : List Turn} (ht : s.turns = .host (.read off) :: ts)
    (hr : s.rst = false) (hl : locked (hostReg off) s = true) :
    step s = .next { raiseError .busy s with turns := ts, readData := some 0 } := by
  rw [step_host ht, runTransaction, hostRead_locked (s := { s with turns := ts }) off hr hl]
  rfl

theorem step_write_open {off : Offset} {v : Word} {ts : List Turn} (ht : s.turns = .host (.write off v) :: ts)
    (hr : s.rst = false) (hl : locked (hostReg off) s = false) :
    step s = .next (writeRegister (hostReg off) v { s with turns := ts }) := by
  rw [step_host ht, runTransaction, hostWrite_open (s := { s with turns := ts }) off v hr hl]

theorem step_write_locked {off : Offset} {v : Word} {ts : List Turn} (ht : s.turns = .host (.write off v) :: ts)
    (hr : s.rst = false) (hl : locked (hostReg off) s = true) :
    step s = .next { raiseError .busy s with turns := ts } := by
  rw [step_host ht, runTransaction, hostWrite_locked (s := { s with turns := ts }) off v hr hl]
  rfl

theorem step_read_rst {off : Offset} {ts : List Turn} (ht : s.turns = .host (.read off) :: ts) (hr : s.rst = true) :
    step s = .next { applyReset s with
      turns := ts, readData := some (if hostReg off = .id then Config.idValue else 0) } := by
  rw [step_host ht, runTransaction, hostRead_rst (s := { s with turns := ts }) off hr]
  rfl

theorem step_write_rst {off : Offset} {v : Word} {ts : List Turn} (ht : s.turns = .host (.write off v) :: ts)
    (hr : s.rst = true) : step s = .next { applyReset s with turns := ts } := by
  rw [step_host ht, runTransaction, hostWrite_rst (s := { s with turns := ts }) off v hr]
  rfl

end Sys2Proof.Machine
end

