-- ==== Sys2Proof/Laws/Canonical.lean ====
section
/-! SUPPORT. Every write of a ring register keeps the rings canonical (R22), and the length of a decoded message. -/

namespace Sys2Proof.Machine

variable {s t : State}

theorem ringsCanonical_setRing (h : s.RingsCanonical) (r : RegNum) {v : RingVec} (hv : v.IsCanonical) :
    (s.setRing r v).RingsCanonical := by
  intro q
  rw [ring_setRing]
  split
  · exact hv
  · exact h q

/-- What writes no ring register keeps them canonical. -/
theorem ringsCanonical_of_rr (h : s.RingsCanonical) (e : t.rr = s.rr) : t.RingsCanonical := by
  intro q
  rw [ring_congr e]
  exact h q

theorem ringsCanonical_fillRows (u : State) : ∀ (l : List RegNum) (n : Nat) (t : State), t.RingsCanonical →
    (fillRows u l n t).RingsCanonical
  | [], _, _, h => h
  | q :: qs, n, _, h =>
    ringsCanonical_fillRows u qs (n + 1) _ (ringsCanonical_setRing h q (isCanonical_drawRow u n))

/-- A canonical value in one coefficient keeps a ring canonical (R72). -/
theorem ringsCanonical_setCoeff (h : s.RingsCanonical) (r : RegNum) (i : Fin 256) {x : Int} (hx : Canonical x) :
    (s.setCoeff r i (BitVec.ofInt 12 x)).RingsCanonical := by
  refine ringsCanonical_setRing h r fun k hk => ?_
  rw [RingVec.coeff_of_lt _ hk, Vector.getElem_set]
  split
  · rw [toInt_ofInt_of_canonical hx]
    exact hx
  · rw [← RingVec.coeff_of_lt _ hk]
    exact h r k hk

/-- A window value that the range check lets through is canonical (R72). -/
theorem inWindowRange_iff (v : Word) : inWindowRange v = true ↔ Canonical v.toInt := by
  simp [inWindowRange, Canonical]

theorem rr_submit (v : Word) (s : State) : (submit v s).rr = s.rr := by
  rcases submit_cases v s with ⟨_, h⟩ | ⟨_, _, h⟩ | ⟨_, _, _, _, _, h⟩ | ⟨_, _, _, _, h⟩ <;> rw [h] <;> rfl

/-- At most 32 bytes are decoded (R202). -/
theorem length_toBytes (v : RingVec) : v.toBytes.length ≤ 32 := by
  have := (List.takeWhile_prefix (fun b => !RingVec.isTerminator b) (l := (List.range 32).map v.byteAt)).length_le
  simpa [RingVec.toBytes] using this

/-- `messageOf` reads back, byte by byte (R39). -/
theorem getElem_messageOf (f : Nat → Byte) {p : Nat} (h : p < 32) : (messageOf f)[p] = f p := by simp [messageOf]

end Sys2Proof.Machine
end

