-- ==== Sys2Proof/Laws/Decode.lean ====
section
/-! SUPPORT. The opcode map has no overlap, and what the fields of an encoded word are (R91 to R96). -/

namespace Sys2Proof

/-- Two rows differ in a bit that both masks hold, so no word is selected by both (R95). -/
def Row.apart (r q : Row) : Bool := (r.pattern ^^^ q.pattern) &&& (r.mask &&& q.mask) != 0

theorem rows_apart : rows.Pairwise fun r q => r.apart q = true := by decide

theorem not_selects_of_apart {r q : Row} (h : r.apart q = true) {w : Word} (hq : q.selects w = true) :
    r.selects w = false := by
  simp only [Row.apart, Row.selects, bne_iff_ne, ne_eq, beq_iff_eq, beq_eq_false_iff_ne] at *
  intro hr
  apply h
  rw [← hr, ← hq]
  ext i
  simp
  cases w[i] <;> cases r.mask[i] <;> cases q.mask[i] <;> simp

/-- If a row of the map selects the word, that row decodes it (R96). -/
theorem find_of_selects {w : Word} {r : Row} : ∀ {l : List Row}, l.Pairwise (fun a b => a.apart b = true) →
    r ∈ l → r.selects w = true → l.find? (fun a => a.selects w) = some r := by
  intro l
  induction l with
  | nil => simp
  | cons a l ih =>
    intro hp hm hs
    rw [List.pairwise_cons] at hp
    rcases List.mem_cons.mp hm with rfl | hm
    · simp [hs]
    · rw [List.find?_cons_of_neg, ih hp.2 hm hs]
      simp [not_selects_of_apart (hp.1 r hm) hs]

theorem decode_of_selects {w : Word} {r : Row} (hm : r ∈ rows) (hs : r.selects w = true) :
    decode w = .ok (r.build w) := by
  unfold decode
  rw [find_of_selects rows_apart hm hs]

/-- A word that decodes is selected by a row that builds the command. -/
theorem selects_of_decode {w : Word} {i : Instr} (h : decode w = .ok i) :
    ∃ r ∈ rows, r.selects w = true ∧ r.build w = i := by
  unfold decode at h
  split at h
  · rename_i r hr
    exact ⟨r, List.mem_of_find?_eq_some hr, by simpa using List.find?_some hr, by simpa using h⟩
  · cases h

/-! ### The bits and the fields of an encoded word -/

theorem getLsbD_rFormat (opc : BitVec 6) (rd rs1 rs2 : RegNum) (i : Nat) :
    (rFormat opc rd rs1 rs2).getLsbD i =
      if i < 11 then false
      else if i < 16 then rs2.val.testBit (i - 11)
      else if i < 21 then rs1.val.testBit (i - 16)
      else if i < 26 then rd.val.testBit (i - 21)
      else opc.getLsbD (i - 26) := by
  unfold rFormat
  simp only [BitVec.getLsbD_append, BitVec.getLsbD_ofFin]
  repeat' split
  all_goals first | rfl | omega | simp

theorem getLsbD_iFormat (opc : BitVec 6) (rd rs1 : RegNum) (imm i : Nat) :
    (iFormat opc rd rs1 imm).getLsbD i =
      if i < 16 then imm.testBit i
      else if i < 21 then rs1.val.testBit (i - 16)
      else if i < 26 then rd.val.testBit (i - 21)
      else opc.getLsbD (i - 26) := by
  unfold iFormat
  simp only [BitVec.getLsbD_append, BitVec.getLsbD_ofFin, BitVec.getLsbD_ofNat]
  repeat' split
  all_goals first | rfl | omega | (simp; omega)

theorem fieldRd_rFormat (opc : BitVec 6) (rd rs1 rs2 : RegNum) : fieldRd (rFormat opc rd rs1 rs2) = rd := by
  refine congrArg BitVec.toFin (a₂ := (BitVec.ofFin rd : BitVec 5)) (BitVec.eq_of_getLsbD_eq fun i hi => ?_)
  rw [BitVec.getLsbD_extractLsb', getLsbD_rFormat, BitVec.getLsbD_ofFin]
  interval_cases i <;> rfl

theorem fieldRs1_rFormat (opc : BitVec 6) (rd rs1 rs2 : RegNum) : fieldRs1 (rFormat opc rd rs1 rs2) = rs1 := by
  refine congrArg BitVec.toFin (a₂ := (BitVec.ofFin rs1 : BitVec 5)) (BitVec.eq_of_getLsbD_eq fun i hi => ?_)
  rw [BitVec.getLsbD_extractLsb', getLsbD_rFormat, BitVec.getLsbD_ofFin]
  interval_cases i <;> rfl

theorem fieldRs2_rFormat (opc : BitVec 6) (rd rs1 rs2 : RegNum) : fieldRs2 (rFormat opc rd rs1 rs2) = rs2 := by
  refine congrArg BitVec.toFin (a₂ := (BitVec.ofFin rs2 : BitVec 5)) (BitVec.eq_of_getLsbD_eq fun i hi => ?_)
  rw [BitVec.getLsbD_extractLsb', getLsbD_rFormat, BitVec.getLsbD_ofFin]
  interval_cases i <;> rfl

theorem fieldRd_iFormat (opc : BitVec 6) (rd rs1 : RegNum) (imm : Nat) : fieldRd (iFormat opc rd rs1 imm) = rd := by
  refine congrArg BitVec.toFin (a₂ := (BitVec.ofFin rd : BitVec 5)) (BitVec.eq_of_getLsbD_eq fun i hi => ?_)
  rw [BitVec.getLsbD_extractLsb', getLsbD_iFormat, BitVec.getLsbD_ofFin]
  interval_cases i <;> rfl

theorem fieldRs1_iFormat (opc : BitVec 6) (rd rs1 : RegNum) (imm : Nat) : fieldRs1 (iFormat opc rd rs1 imm) = rs1 := by
  refine congrArg BitVec.toFin (a₂ := (BitVec.ofFin rs1 : BitVec 5)) (BitVec.eq_of_getLsbD_eq fun i hi => ?_)
  rw [BitVec.getLsbD_extractLsb', getLsbD_iFormat, BitVec.getLsbD_ofFin]
  interval_cases i <;> rfl

theorem fieldImm_iFormat (opc : BitVec 6) (rd rs1 : RegNum) {imm : Nat} (h : imm < 65536) :
    fieldImm (iFormat opc rd rs1 imm) = imm := by
  have : BitVec.extractLsb' 0 16 (iFormat opc rd rs1 imm) = BitVec.ofNat 16 imm := by
    refine BitVec.eq_of_getLsbD_eq fun i hi => ?_
    rw [BitVec.getLsbD_extractLsb', getLsbD_iFormat, BitVec.getLsbD_ofNat]
    simp [hi]
  rw [fieldImm, this, BitVec.toNat_ofNat]
  omega

end Sys2Proof
end

