-- ==== Sys2Proof/Laws/Effect.lean ====
section
/-! SUPPORT. What the operations read, and everything that a completion can change (R123). -/

namespace Sys2Proof.Machine

variable {s t u u' : State}

/-! ### What the operations read -/

theorem pkRecv_congr (h : s.rr = t.rr) (fa : Bool) : pkRecv s fa = pkRecv t fa := by
  simp [pkRecv, ring_congr h]

theorem pkSend_congr (h : s.rr = t.rr) (fa : Bool) : pkSend s fa = pkSend t fa := by
  simp [pkSend, ring_congr h]

theorem noiseTerm_congr (h : s.rr = t.rr) (fa : Bool) : noiseTerm s fa = noiseTerm t fa := by
  simp [noiseTerm, ring_congr h]

theorem noisy_congr (h : s.rr = t.rr) (fa : Bool) : noisy s fa = noisy t fa := by
  simp [noisy, predicted, ring_congr h]

theorem drawRow_congr (h : s.drawbuf = t.drawbuf) (n : Nat) : drawRow s n = drawRow t n := by
  simp [drawRow, State.draw, h]

theorem msgByte_congr (h : s.msg = t.msg) (p : Nat) : s.msgByte p = t.msgByte p := by
  simp [State.msgByte, h]

theorem rr_setRing_congr (h : s.rr = t.rr) (r : RegNum) (v : RingVec) : (s.setRing r v).rr = (t.setRing r v).rr := by
  simp [h]

theorem rr_fillRows_congr (hu : u.drawbuf = u'.drawbuf) : ∀ (l : List RegNum) (n : Nat) {s t : State}, s.rr = t.rr →
    (fillRows u l n s).rr = (fillRows u' l n t).rr
  | [], _, _, _, h => h
  | r :: rs, n, s, t, h => by
    rw [fillRows, fillRows, drawRow_congr hu]
    exact rr_fillRows_congr hu rs (n + 1) (rr_setRing_congr h r _)

/-! ### What a completion changes -/

theorem setMessage_eq (s : State) (out : List Byte) : s.setMessage out =
    { s with msg := messageOf fun p => out.getD p 0x00, decLen := BitVec.ofNat 6 out.length } := rfl

theorem exec_mdec (s : State) (r : RegNum) :
    exec (.mdec r) s = .next (complete (s.setMessage (s.ring r).toBytes)) := rfl

/-- Everything that a completion can change, for every command that submission accepts (R123). -/
theorem exec_eq {i : Instr} (hi : submissionError i = none) (h : exec i s = .next t) :
    ∃ rr scalarOut msg decLen tempGen, t = { s with
      rr := rr, scalarOut := scalarOut, msg := msg, decLen := decLen, tempGen := tempGen
      phase := .idle, done := true, drawbuf := [] } := by
  cases i with
  | menc rd len =>
    cases hl : lengthTooLong len
    · rw [exec, execMenc, hl] at h
      exact ⟨_, _, _, _, _, (Host.Outcome.next.inj h).symm⟩
    · simp [submissionError, hl] at hi
  | kgen =>
    have h := (Host.Outcome.next.inj h).symm
    rw [fillRows_of_rr (s := s) kgenRows 0 rfl] at h
    exact ⟨_, _, _, _, _, h⟩
  | sgen =>
    have h := (Host.Outcome.next.inj h).symm
    rw [fillRows_of_rr (s := s) sgenRows 0 rfl] at h
    exact ⟨_, _, _, _, _, h⟩
  | mdec r =>
    rw [exec_mdec, setMessage_eq, Host.Outcome.next.injEq] at h
    exact ⟨_, _, _, _, _, h.symm⟩
  | _ => exact ⟨_, _, _, _, _, (Host.Outcome.next.inj h).symm⟩

end Sys2Proof.Machine
end

