-- ==== Sys2Proof/Laws/Negacyclic.lean ====
section
/-! SUPPORT. The algebra of the negacyclic product over any commutative ring: symmetric, associative, additive (R151,
R153). The idea: a coefficient vector extends to all integers with `a (n + 256) = -a n`, and the product is then a
plain convolution over any 256 consecutive indices. -/

namespace Sys2Proof.Laws

open Finset

variable {R : Type} [CommRing R]

/-- The extension of a coefficient vector to all integers with `a (n + 256) = -a n`. -/
def negExt (a : ℕ → R) (n : ℤ) : R := if (n / 256) % 2 = 0 then a (n % 256).toNat else -a (n % 256).toNat

theorem negExt_add (a : ℕ → R) (n : ℤ) : negExt a (n + 256) = -negExt a n := by
  unfold negExt
  rw [show (n + 256) % 256 = n % 256 by omega, show (n + 256) / 256 = n / 256 + 1 by omega]
  by_cases h : (n / 256) % 2 = 0
  · rw [if_pos h, if_neg (by omega)]
  · rw [if_neg h, if_pos (by omega), neg_neg]

theorem negExt_sub (a : ℕ → R) (n : ℤ) : negExt a (n - 256) = -negExt a n := by
  have := negExt_add a (n - 256)
  rw [sub_add_cancel] at this
  rw [this, neg_neg]

theorem negExt_natCast (a : ℕ → R) {n : ℕ} (h : n < 256) : negExt a n = a n := by
  unfold negExt
  rw [if_pos (by omega)]
  congr 1
  omega

theorem negExt_congr {a b : ℕ → R} (h : ∀ i < 256, a i = b i) (n : ℤ) : negExt a n = negExt b n := by
  unfold negExt
  rw [h _ (by omega)]

/-- Two extensions that agree on 0..255 agree everywhere. -/
theorem antiperiodic_unique {f g : ℤ → R} (hf : ∀ n, f (n + 256) = -f n) (hg : ∀ n, g (n + 256) = -g n)
    (h : ∀ n : ℕ, n < 256 → f n = g n) (n : ℤ) : f n = g n := by
  have up : ∀ (q : ℕ) (m : ℤ), f m = g m → f (m + 256 * q) = g (m + 256 * q) := by
    intro q
    induction q with
    | zero => intro m hm; simpa using hm
    | succ q ih =>
      intro m hm
      have := ih m hm
      push_cast
      rw [show m + 256 * ((q : ℤ) + 1) = (m + 256 * q) + 256 by ring, hf, hg, this]
  have down : ∀ (q : ℕ) (m : ℤ), f m = g m → f (m - 256 * q) = g (m - 256 * q) := by
    intro q
    induction q with
    | zero => intro m hm; simpa using hm
    | succ q ih =>
      intro m hm
      have h1 := ih m hm
      have h2 := hf (m - 256 * ((q : ℤ) + 1))
      have h3 := hg (m - 256 * ((q : ℤ) + 1))
      rw [show m - 256 * ((q : ℤ) + 1) + 256 = m - 256 * q by ring] at h2 h3
      push_cast
      rw [← neg_inj, ← h2, ← h3, h1]
  have base : f (n % 256) = g (n % 256) := by
    have := h (n % 256).toNat (by omega)
    rwa [Int.toNat_of_nonneg (by omega)] at this
  rcases le_or_gt 0 (n / 256) with hq | hq
  · have := up (n / 256).toNat _ base
    rwa [Int.toNat_of_nonneg hq, show n % 256 + 256 * (n / 256) = n by omega] at this
  · have := down (-(n / 256)).toNat _ base
    rwa [Int.toNat_of_nonneg (by omega), show n % 256 - 256 * (-(n / 256)) = n by omega] at this

/-- The sum of a function of period 256 over 256 consecutive integers does not depend on where they start. -/
theorem sum_shift {P : ℤ → R} (hP : ∀ n, P (n + 256) = P n) (c : ℤ) :
    ∑ i ∈ range 256, P (i + c) = ∑ i ∈ range 256, P i := by
  have one : ∀ c : ℤ, ∑ i ∈ range 256, P (i + (c + 1)) = ∑ i ∈ range 256, P (i + c) := by
    intro c
    have h1 := sum_range_succ (fun i : ℕ => P (i + c)) 256
    have h2 := sum_range_succ' (fun i : ℕ => P (i + c)) 256
    rw [h1] at h2
    have h3 : P (((256 : ℕ) : ℤ) + c) = P (((0 : ℕ) : ℤ) + c) := by
      rw [show ((256 : ℕ) : ℤ) + c = (((0 : ℕ) : ℤ) + c) + 256 by push_cast; ring, hP]
    rw [h3] at h2
    have h4 := add_right_cancel h2
    rw [h4]
    refine sum_congr rfl fun i _ => ?_
    push_cast
    ring_nf
  induction c using Int.induction_on with
  | zero => simp
  | succ k ih => rw [one, ih]
  | pred k ih =>
    have := one (-(k : ℤ) - 1)
    rw [sub_add_cancel] at this
    rw [← this, ih]

/-- The negacyclic product (R151). -/
def negConv (a b : ℕ → R) (k : ℕ) : R := ∑ i ∈ range 256, negExt a ((k : ℤ) - i) * b i

theorem negConv_congr {a a' b b' : ℕ → R} (ha : ∀ i < 256, a i = a' i) (hb : ∀ i < 256, b i = b' i) (k : ℕ) :
    negConv a b k = negConv a' b' k :=
  sum_congr rfl fun i hi => by rw [negExt_congr ha, hb i (mem_range.mp hi)]

theorem negConv_add_left (a a' b : ℕ → R) (k : ℕ) :
    negConv (fun i => a i + a' i) b k = negConv a b k + negConv a' b k := by
  unfold negConv
  rw [← sum_add_distrib]
  refine sum_congr rfl fun i _ => ?_
  unfold negExt
  split <;> ring

theorem negConv_add_right (a b b' : ℕ → R) (k : ℕ) :
    negConv a (fun i => b i + b' i) k = negConv a b k + negConv a b' k := by
  unfold negConv
  rw [← sum_add_distrib]
  exact sum_congr rfl fun i _ => by ring

/-- The extension of a product is the convolution at every integer. -/
theorem negExt_negConv (a b : ℕ → R) (n : ℤ) :
    negExt (negConv a b) n = ∑ i ∈ range 256, negExt a (n - i) * b i := by
  refine antiperiodic_unique (f := negExt (negConv a b))
    (g := fun n => ∑ i ∈ range 256, negExt a (n - i) * b i) (fun n => negExt_add _ n) (fun n => ?_) (fun n hn => ?_) n
  · rw [← sum_neg_distrib]
    refine sum_congr rfl fun i _ => ?_
    rw [show n + 256 - (i : ℤ) = (n - i) + 256 by ring, negExt_add]
    ring
  · rw [negExt_natCast _ hn]
    rfl

theorem negConv_comm (a b : ℕ → R) (k : ℕ) : negConv a b k = negConv b a k := by
  have key : ∀ u v : ℕ → R, negConv u v k = ∑ i ∈ range 256, negExt u ((k : ℤ) - i) * negExt v i :=
    fun u v => sum_congr rfl fun i hi => by rw [negExt_natCast v (mem_range.mp hi)]
  rw [key a b, key b a]
  have hP : ∀ n : ℤ, negExt a ((k : ℤ) - (n + 256)) * negExt b (n + 256) = negExt a ((k : ℤ) - n) * negExt b n := by
    intro n
    rw [show (k : ℤ) - (n + 256) = (k - n) - 256 by ring, negExt_sub, negExt_add]
    ring
  rw [← sum_shift (P := fun n => negExt a ((k : ℤ) - n) * negExt b n) hP ((k : ℤ) - 255), ← sum_range_reflect]
  refine sum_congr rfl fun i hi => ?_
  have : i ≤ 255 := by have := mem_range.mp hi; omega
  rw [show ((256 - 1 - i : ℕ) : ℤ) = 255 - i by omega]
  rw [show (k : ℤ) - (255 - i + (k - 255)) = i by ring, show (255 : ℤ) - i + (k - 255) = k - i by ring, mul_comm]

theorem negConv_assoc (a b c : ℕ → R) (k : ℕ) : negConv (negConv a b) c k = negConv a (negConv b c) k := by
  have hr : negConv a (negConv b c) k = ∑ m ∈ range 256, ∑ i ∈ range 256,
      negExt a ((k : ℤ) - m) * negExt b ((m : ℤ) - i) * c i := by
    refine sum_congr rfl fun m hm => ?_
    rw [← negExt_natCast (negConv b c) (mem_range.mp hm), negExt_negConv, mul_sum]
    exact sum_congr rfl fun i _ => by ring
  rw [hr, sum_comm]
  refine sum_congr rfl fun i _ => ?_
  rw [negExt_negConv, sum_mul]
  have hP : ∀ n : ℤ, negExt a ((k : ℤ) - (n + 256)) * negExt b (n + 256 - i) * c i =
      negExt a ((k : ℤ) - n) * negExt b (n - i) * c i := by
    intro n
    rw [show (k : ℤ) - (n + 256) = (k - n) - 256 by ring, show n + 256 - (i : ℤ) = (n - i) + 256 by ring, negExt_sub,
      negExt_add]
    ring
  rw [← sum_shift (P := fun n => negExt a ((k : ℤ) - n) * negExt b (n - i) * c i) hP (i : ℤ)]
  refine sum_congr rfl fun j hj => ?_
  rw [show (k : ℤ) - i - j = k - (j + i) by ring, add_sub_cancel_right, negExt_natCast b (mem_range.mp hj)]

/-! ### The exact product of R151, and its image in any commutative ring -/

theorem cast_negacyclicSum (a b : ℕ → ℤ) {k : ℕ} (hk : k < 256) :
    ((negacyclicSum a b k : ℤ) : R) = negConv (fun i => (a i : R)) (fun i => (b i : R)) k := by
  unfold negacyclicSum negConv
  rw [← sum_range_add_sum_Ico _ (show k + 1 ≤ 256 by omega)]
  push_cast
  rw [sub_eq_add_neg, ← sum_neg_distrib]
  congr 1
  · refine sum_congr rfl fun i hi => ?_
    have := mem_range.mp hi
    rw [show (k : ℤ) - i = ((k - i : ℕ) : ℤ) by omega, negExt_natCast _ (by omega)]
  · refine sum_congr rfl fun i hi => ?_
    have := mem_Ico.mp hi
    rw [show (k : ℤ) - i = ((k + 256 - i : ℕ) : ℤ) - 256 by omega, negExt_sub, negExt_natCast _ (by omega)]
    ring

/-- The rotated terms of R150 sum to the exact product of R151. -/
theorem sum_rotatedTerm (a b : ℕ → ℤ) {d : ℕ} (hd : d < 256) :
    ∑ i ∈ range 256, RingVec.rotatedTerm (fun j => a j * b i) i d = negacyclicSum a b d := by
  have h := cast_negacyclicSum (R := ℤ) a b hd
  simp only [Int.cast_id] at h
  rw [h]
  refine sum_congr rfl fun i hi => ?_
  have hi := mem_range.mp hi
  unfold RingVec.rotatedTerm
  rw [Nat.mod_eq_of_lt hi]
  split
  · rename_i h0
    subst h0
    simp [negExt_natCast a hd]
  · split
    · rename_i _ hlt
      rw [show (d : ℤ) - i = ((d + 256 - i : ℕ) : ℤ) - 256 by omega, negExt_sub, negExt_natCast _ (by omega),
        Nat.mod_eq_of_lt (by omega)]
      ring
    · rename_i _ hge
      rw [show (d : ℤ) - i = ((d - i : ℕ) : ℤ) by omega, negExt_natCast _ (by omega),
        show (d + 256 - i) % 256 = d - i by omega]

/-- What `ring_mul` computes at each index: the representative of the exact product (R150, R151). -/
theorem coeff_mul_isReduced (a b : RingVec) {k : ℕ} (hk : k < 256) :
    IsReduced ((a.mul b).coeff k) (a.exactProduct b k) := by
  rw [RingVec.coeff_mul a b hk]
  refine ⟨reduce_canonical _, ?_⟩
  rw [reduce_emod, RingVec.mulAcc_emod, sum_rotatedTerm _ _ hk]
  rfl

end Sys2Proof.Laws
end

