-- ==== Sys2Proof/Laws/PerInstr.lean ====
section
/-! SUPPORT. What holds of every command, one lemma per constructor. -/

namespace Sys2Proof.Laws

/-- The place of a command's row in the opcode map (R95). -/
def rowOf : Instr → Fin 16
  | .nop => 0
  | .radd _ _ _ => 1
  | .rsub _ _ _ => 2
  | .rmul _ _ _ => 3
  | .rrot _ _ _ => 4
  | .rgen _ => 5
  | .sred => 6
  | .menc _ _ => 7
  | .mthr _ _ => 8
  | .mdec _ => 9
  | .kgen => 10
  | .pkder => 11
  | .sgen => 12
  | .spkder => 13
  | .enc => 14
  | .dec => 15

namespace RowSelects

/-- The command's row selects the command's word (R95, R103). -/
def Statement (i : Instr) : Prop := (rows.get (rowOf i)).selects (encode i) = true

theorem nop : Statement .nop := by
  unfold Statement
  decide

theorem radd (rd : RegNum) (rs1 : RegNum) (rs2 : RegNum) : Statement (.radd rd rs1 rs2) := by
  refine beq_iff_eq.mpr (BitVec.eq_of_getLsbD_eq fun i hi => ?_)
  rw [BitVec.getLsbD_and, encode, getLsbD_rFormat]
  interval_cases i <;> simp [rows, rowOf]

theorem rsub (rd : RegNum) (rs1 : RegNum) (rs2 : RegNum) : Statement (.rsub rd rs1 rs2) := by
  refine beq_iff_eq.mpr (BitVec.eq_of_getLsbD_eq fun i hi => ?_)
  rw [BitVec.getLsbD_and, encode, getLsbD_rFormat]
  interval_cases i <;> simp [rows, rowOf]

theorem rmul (rd : RegNum) (rs1 : RegNum) (rs2 : RegNum) : Statement (.rmul rd rs1 rs2) := by
  refine beq_iff_eq.mpr (BitVec.eq_of_getLsbD_eq fun i hi => ?_)
  rw [BitVec.getLsbD_and, encode, getLsbD_rFormat]
  interval_cases i <;> simp [rows, rowOf]

theorem rrot (rd : RegNum) (rs1 : RegNum) (imm : Nat) : Statement (.rrot rd rs1 imm) := by
  refine beq_iff_eq.mpr (BitVec.eq_of_getLsbD_eq fun i hi => ?_)
  rw [BitVec.getLsbD_and, encode, getLsbD_iFormat]
  interval_cases i <;> simp [rows, rowOf]

theorem rgen (rd : RegNum) : Statement (.rgen rd) := by
  refine beq_iff_eq.mpr (BitVec.eq_of_getLsbD_eq fun i hi => ?_)
  rw [BitVec.getLsbD_and, encode, getLsbD_rFormat]
  interval_cases i <;> simp [rows, rowOf]

theorem sred : Statement .sred := by
  unfold Statement
  decide

theorem menc (rd : RegNum) (len : Nat) : Statement (.menc rd len) := by
  refine beq_iff_eq.mpr (BitVec.eq_of_getLsbD_eq fun i hi => ?_)
  rw [BitVec.getLsbD_and, encode, getLsbD_iFormat]
  interval_cases i <;> simp [rows, rowOf]

theorem mthr (rd : RegNum) (rs1 : RegNum) : Statement (.mthr rd rs1) := by
  refine beq_iff_eq.mpr (BitVec.eq_of_getLsbD_eq fun i hi => ?_)
  rw [BitVec.getLsbD_and, encode, getLsbD_rFormat]
  interval_cases i <;> simp [rows, rowOf]

theorem mdec (rs1 : RegNum) : Statement (.mdec rs1) := by
  refine beq_iff_eq.mpr (BitVec.eq_of_getLsbD_eq fun i hi => ?_)
  rw [BitVec.getLsbD_and, encode, getLsbD_rFormat]
  interval_cases i <;> simp [rows, rowOf]

theorem kgen : Statement .kgen := by
  unfold Statement
  decide

theorem pkder : Statement .pkder := by
  unfold Statement
  decide

theorem sgen : Statement .sgen := by
  unfold Statement
  decide

theorem spkder : Statement .spkder := by
  unfold Statement
  decide

theorem enc : Statement .enc := by
  unfold Statement
  decide

theorem dec : Statement .dec := by
  unfold Statement
  decide

end RowSelects

end Sys2Proof.Laws
end

