-- ==== Sys2Proof/Tests/Slice0.lean ====
section
/-! SUPPORT. The model's own tests. Expected values are those that 95_test_vectors.md prints (vectors V1 to V12, programs
P1 to P7) or words written out from the encodings of 30_encoding.md R91, R92, R95; and one witness for the hypotheses of
each obligation that has any, for each of its clauses. -/

namespace Sys2Proof.Tests

open Sys2Proof Sys2Proof.Machine

/-! ### Helpers -/

/-- The value at `k` of a sparse list of coefficients (R11). -/
def sparseAt (l : List (Nat × Int)) (k : Nat) : Int := (l.lookup k).getD 0

/-- The ring that the spec writes as a sparse list (R11). -/
def sparse (l : List (Nat × Int)) : RingVec := .tabulate (sparseAt l)

theorem canonical_sparseAt (l : List (Nat × Int)) (k : Nat)
    (h : l.all (fun p => decide (p.1 < 256 ∧ Canonical p.2)) = true) :
    Canonical (sparseAt l k) ∧ (256 ≤ k → sparseAt l k = 0) := by
  unfold sparseAt
  induction l with
  | nil => exact ⟨show Canonical 0 by decide, fun _ => rfl⟩
  | cons p l ih =>
    simp only [List.all_cons, Bool.and_eq_true, decide_eq_true_eq] at h
    obtain ⟨⟨hp, hc⟩, hl⟩ := h
    rw [List.lookup_cons]
    split
    · rename_i he
      have : k = p.1 := by simpa using he
      exact ⟨hc, fun hk => absurd hp (by omega)⟩
    · exact ih hl

theorem coeff_sparse (l : List (Nat × Int)) (h : l.all (fun p => decide (p.1 < 256 ∧ Canonical p.2)) = true) :
    (sparse l).coeff = sparseAt l := by
  funext k
  rcases Nat.lt_or_ge k 256 with hk | hk
  · exact RingVec.coeff_tabulate _ hk (canonical_sparseAt l k h).1
  · rw [RingVec.coeff_of_ge _ hk, (canonical_sparseAt l k h).2 hk]

theorem isCanonical_sparse (l : List (Nat × Int)) (h : l.all (fun p => decide (p.1 < 256 ∧ Canonical p.2)) = true) :
    (sparse l).IsCanonical := RingVec.isCanonical_tabulate fun k _ => (canonical_sparseAt l k h).1

/-- A state with these rings, as reset otherwise but for `fa`. -/
def ringsState (fa : Bool) (rows : RegNum → List (Nat × Int)) : State :=
  { State.reset with fa := fa, rr := Vector.ofFn fun r => sparse (rows r) }

theorem ring_ringsState (fa : Bool) (rows : RegNum → List (Nat × Int)) (r : RegNum) :
    (ringsState fa rows).ring r = sparse (rows r) := by simp [State.ring, ringsState]

/-- The state after a completion (the state itself if it stops). -/
def after (i : Instr) (s : State) : State :=
  match exec i s with
  | .next t => t
  | .fault _ => s
  | .refused _ => s

/-- The state after some steps (the state itself if it stops). -/
def steps (n : Nat) (s : State) : State :=
  match core.run n s with
  | .next t => t
  | .fault _ => s
  | .refused _ => s

/-- The reset state with these turns to come. -/
def script (ts : List Turn) : State := { State.reset with turns := ts }

/-- `store off, v`. -/
abbrev store (off : Offset) (v : Word) : Turn := .host (.write off v)

/-- `load off`. -/
abbrev load (off : Offset) : Turn := .host (.read off)

/-- A busy engine with this word latched, this many draws to take and these codes on offer. -/
def busy (w : Word) (need : Nat) (codes : List Code) : State :=
  { State.reset with phase := .busy, cmd := some w, need := need, entropy := codes }

/-! ### Well-formedness: one ill-formed term for each check -/

theorem test_wf_rrot_imm_refused : (Instr.rrot 0 0 65536).wellFormed = false := by decide
theorem test_wf_rrot_imm_bound : (Instr.rrot 0 0 65535).wellFormed = true := by decide
theorem test_wf_menc_len_refused : (Instr.menc 0 65536).wellFormed = false := by decide
theorem test_wf_menc_len_bound : (Instr.menc 0 65535).wellFormed = true := by decide

/-! ### Decoding: words written out field by field from R91, R92, R95 (OPC RD RS1 RS2 Z11, or OPC RD RS1 IMM16) -/

theorem test_decode_nop : decode 0b000000_00000_00000_00000_00000000000 = .ok .nop := by decide
theorem test_decode_radd : decode 0b000001_00001_00010_00011_00000000000 = .ok (.radd 1 2 3) := by decide
theorem test_decode_rsub : decode 0b000010_10111_10101_10110_00000000000 = .ok (.rsub 23 21 22) := by decide
theorem test_decode_rmul : decode 0b000011_10101_10011_10100_00000000000 = .ok (.rmul 21 19 20) := by decide
theorem test_decode_rrot : decode 0b000100_10100_10101_1000000000000001 = .ok (.rrot 20 21 0x8001) := by decide
theorem test_decode_rgen : decode 0b000101_10011_00000_00000_00000000000 = .ok (.rgen 19) := by decide
theorem test_decode_sred : decode 0b000110_00000_00000_00000_00000000000 = .ok .sred := by decide
theorem test_decode_menc : decode 0b000111_10000_00000_0000000000100001 = .ok (.menc 16 33) := by decide
theorem test_decode_mthr : decode 0b001000_10011_10000_00000_00000000000 = .ok (.mthr 19 16) := by decide
theorem test_decode_mdec : decode 0b001001_00000_10010_00000_00000000000 = .ok (.mdec 18) := by decide
theorem test_decode_kgen : decode 0b010000_00000_00000_00000_00000000000 = .ok .kgen := by decide
theorem test_decode_pkder : decode 0b010001_00000_00000_00000_00000000000 = .ok .pkder := by decide
theorem test_decode_sgen : decode 0b010010_00000_00000_00000_00000000000 = .ok .sgen := by decide
theorem test_decode_spkder : decode 0b010011_00000_00000_00000_00000000000 = .ok .spkder := by decide
theorem test_decode_enc : decode 0b010100_00000_00000_00000_00000000000 = .ok .enc := by decide
theorem test_decode_dec : decode 0b010101_00000_00000_00000_00000000000 = .ok .dec := by decide

/-- The reason why a word is illegal. -/
def reason (w : Word) : Option Illegal :=
  match decode w with
  | .ok _ => none
  | .error e => some e

/-- The words that V10 calls ILLEGAL for a reserved field. -/
theorem test_decode_reserved : [0x04221801, 0x14010000, 0x18000001, 0x1C010000, 0x20000001, 0x24200000, 0x40000001,
    0x00000001].all (fun w => reason w == some .reservedField) = true := by decide

/-- The words that V10 calls ILLEGAL for their OPC. -/
theorem test_decode_unassigned : [0x28000000, 0x3C000000, 0x58000000, 0x80000000, 0xFC000000].all
    (fun w => reason w == some .opcode) = true := by decide

/-- Encodings that the programs P2, P3, P5 and the vectors V2, V3, V4, V7 print. -/
theorem test_encode_words :
    encode (.rmul 22 20 19) = 0x0ED49800 ∧ encode (.rrot 25 19 257) = 0x13330101 ∧
    encode (.radd 26 19 20) = 0x0753A000 ∧ encode (.rsub 20 20 20) = 0x0A94A000 ∧
    encode (.mthr 31 31) = 0x23FF0000 ∧ encode (.mdec 16) = 0x24100000 ∧ encode (.menc 16 65535) = 0x1E00FFFF ∧
    encode (.rgen 19) = 0x16600000 ∧ encode .spkder = 0x4C000000 := by decide

theorem test_decodeTableWord : decodeTableWord 32 0x10A50001 = some (.rrot 5 5 1) := by decide

/-- No two rows of the map match one word (R95). -/
theorem test_rows_apart : rows.Pairwise fun r q => r.apart q = true := rows_apart

/-! ### The assembler (R100 to R105) -/

theorem test_asm_radd : assembleLine "RAdd R1, r2,r3 # sum" = .ok (some (.radd 1 2 3)) := by decide +kernel
theorem test_asm_hex : assembleLine "rrot s0, w, 0x101" = .ok (some (.rrot 0 18 257)) := by decide +kernel
theorem test_asm_range : assembleLine "menc r16, 65536" = .error .notAnImmediate := by decide +kernel
theorem test_asm_register : assembleLine "rgen r32" = .error .notARegister := by decide +kernel

/-! ### SRED (V1.2) -/

theorem test_sred_max : (after .sred { State.reset with scalarIn := 0x7FFFFFFF }).scalarOut = 0xFFFFFC23 := by decide
theorem test_sred_min : (after .sred { State.reset with scalarIn := 0x80000000 }).scalarOut = 0x000003DC := by decide

/-- The table of V1.1. -/
theorem test_reduce : [1664, 1665, -1664, -1665, 3328, 4993, 4994, -3329, 2768896, -2768896, -708837376].map reduce =
    [1664, -1664, -1664, 1664, -1, 1664, -1664, 0, -832, 832, -64] := by decide

/-! ### RADD, RSUB (V2) -/

/-- The operands of V2 in RR21, RR22; a nonzero index 255 in the destination RR20 (V2.3). -/
def v2Rows : RegNum → List (Nat × Int)
  | 21 => [(0, 1664), (1, -1664), (254, 1000), (255, 7)]
  | 22 => [(0, 1), (1, -1), (254, 1000), (255, 9)]
  | 20 => [(255, 9)]
  | _ => []

theorem test_radd_legacy : [0, 1, 2, 254, 255].map ((after (.radd 20 21 22) (ringsState false v2Rows)).ring 20).coeff =
    [-1664, 1664, 0, -1329, 0] := by decide +kernel
theorem test_radd_full : [0, 255].map ((after (.radd 20 21 22) (ringsState true v2Rows)).ring 20).coeff =
    [-1664, 16] := by decide +kernel
theorem test_rsub_legacy : [0, 1, 254, 255].map ((after (.rsub 20 21 22) (ringsState false v2Rows)).ring 20).coeff =
    [1663, -1663, 0, 0] := by decide +kernel
theorem test_rsub_full : [0, 255].map ((after (.rsub 21 21 22) (ringsState true v2Rows)).ring 21).coeff =
    [1663, -2] := by decide +kernel

/-! ### RROT (V3) -/

/-- The operand of V3 in RR5. -/
def v3Rows : RegNum → List (Nat × Int)
  | 5 => [(0, 5), (1, -7), (255, 1664)]
  | _ => []

theorem test_rrot_one : [0, 1, 2, 255].map ((after (.rrot 5 5 257) (ringsState false v3Rows)).ring 5).coeff =
    [-1664, 5, -7, 0] := by decide +kernel
theorem test_rrot_255 : [0, 1, 254, 255].map ((after (.rrot 6 5 65535) (ringsState false v3Rows)).ring 6).coeff =
    [7, 0, -1664, 5] := by decide +kernel

/-! ### RMUL (V4) -/

/-- `a` and `b` of V4's fifth row in RR19, RR20. -/
def v4Rows : RegNum → List (Nat × Int)
  | 19 => [(0, 1), (1, 2), (255, 3)]
  | 20 => [(0, 4), (254, -1), (255, 5)]
  | _ => []

theorem test_rmul : [0, 1, 253, 254, 255].map ((after (.rmul 21 19 20) (ringsState false v4Rows)).ring 21).coeff =
    [-6, 8, 3, -16, 15] := by
  have h : (after (.rmul 21 19 20) (ringsState false v4Rows)).ring 21 = (sparse (v4Rows 19)).mul (sparse (v4Rows 20)) := by
    rw [← ring_ringsState false v4Rows 19, ← ring_ringsState false v4Rows 20]
    exact ring_setRing_self ..
  rw [h]
  simp only [List.map, RingVec.coeff_mul _ _ (show (0 : Nat) < 256 by decide),
    RingVec.coeff_mul _ _ (show (1 : Nat) < 256 by decide), RingVec.coeff_mul _ _ (show (253 : Nat) < 256 by decide),
    RingVec.coeff_mul _ _ (show (254 : Nat) < 256 by decide), RingVec.coeff_mul _ _ (show (255 : Nat) < 256 by decide)]
  rw [coeff_sparse _ (by decide), coeff_sparse _ (by decide)]
  decide +kernel

/-- All 1664 times all 1664: `c[0] = 1601`, `c[128] = -1664`, `c[255] = 64`. -/
theorem test_ring_mul_dense : [0, 128, 255].map (fun d => reduce (RingVec.mulAcc (fun _ => 1664) (fun _ => 1664) 256 d)) =
    [1601, -1664, 64] := by decide +kernel

/-! ### RGEN, KGEN, SGEN (V5) -/

/-- V5.1: the engine takes 0b10 (rejected), then 0b11; P6 step 1: STATUS is 1 while it waits. -/
theorem test_rgen_codes : (steps 2 (busy 0x16600000 256 [0b10, 0b11])).drawbuf = [.minusOne] ∧
    (steps 2 (busy 0x16600000 256 [0b10, 0b11])).need = 255 ∧ (busy 0x16600000 256 []).statusWord = 1 ∧
    (busy 0x16600000 256 []).entReady = true := by decide +kernel

theorem test_rgen_ring : [0, 1, 255].map ((after (.rgen 19)
    { State.reset with drawbuf := .minusOne :: List.replicate 255 .plusOne }).ring 19).coeff = [-1, 1, 1] := by
  decide +kernel

/-- 256 draws, 0 but for one. -/
def oneDraw (k : Nat) (d : Draw) : List Draw := List.replicate k .zero ++ d :: List.replicate (255 - k) .zero

/-- The draws that give RR0 to RR7 the rows of V8. -/
def v8Draws : List Draw := oneDraw 0 .plusOne ++ oneDraw 1 .minusOne ++ oneDraw 3 .plusOne ++ oneDraw 255 .minusOne ++
  oneDraw 0 .plusOne ++ oneDraw 1 .plusOne ++ oneDraw 0 .minusOne ++ oneDraw 2 .plusOne

/-- The rows land in RR0 to RR7 (R172). -/
theorem test_kgen_rows : (kgenRows.zip [(0, 1), (1, -1), (3, 1), (255, -1), (0, 1), (1, 1), (0, -1), (2, 1)]).all
    (fun p => decide (((after .kgen { State.reset with drawbuf := v8Draws }).ring p.1).coeff p.2.1 = p.2.2)) = true := by
  decide +kernel

/-- The rows land in RR10 to RR13 (R172). -/
theorem test_sgen_rows : (sgenRows.zip [(0, 1), (1, -1), (3, 1), (255, -1)]).all
    (fun p => decide (((after .sgen { State.reset with drawbuf := v8Draws }).ring p.1).coeff p.2.1 = p.2.2)) = true := by
  decide +kernel

/-! ### PKDER, SPKDER, ENC, DEC (V8) -/

/-- The rows of V8, the public keys that it derives with `fa = 1`, "Hi" and its ciphertext. -/
def v8Rows : RegNum → List (Nat × Int)
  | 0 => [(0, 1)]
  | 1 => [(1, -1)]
  | 2 => [(3, 1)]
  | 3 => [(255, -1)]
  | 4 => [(0, 1)]
  | 5 => [(1, 1)]
  | 6 => [(0, -1)]
  | 7 => [(2, 1)]
  | 8 => [(0, 1), (2, -1), (3, 1)]
  | 9 => [(0, -1), (3, -1), (255, -1)]
  | 10 => [(2, 1)]
  | 11 => [(0, 1)]
  | 12 => [(5, -1)]
  | 14 => [(0, -1), (2, 1), (5, -1)]
  | 15 => [(2, 1), (3, 1)]
  | 16 => [(1, -1664), (4, -1664), (9, -1664), (10, -1664), (12, -1664), (15, -1664)]
  | 17 => [(0, -1), (1, -1664), (2, 1), (3, -1), (4, 1664), (5, 1), (9, -1664), (10, -1664), (12, -1664), (15, -1664),
    (255, -1)]
  | _ => []

/-- Every coefficient of V8's rings is canonical, so the list is read back. -/
theorem coeff_v8 (fa : Bool) (r : RegNum) : ((ringsState fa v8Rows).ring r).coeff = sparseAt (v8Rows r) := by
  rw [ring_ringsState, coeff_sparse]
  revert r
  decide

/-- Coefficient `k` of `a·b + c·d`, from the coefficients of the factors. -/
theorem coeff_pair (a b c d : RingVec) (fa : Bool) {k : Nat} (hk : k < 256) :
    ((a.mul b).add (c.mul d) fa).coeff k = if k < RingVec.computedIndices fa then
      reduce (reduce (RingVec.mulAcc a.coeff b.coeff 256 k) + reduce (RingVec.mulAcc c.coeff d.coeff 256 k)) else 0 := by
  rw [RingVec.coeff_add _ _ _ hk, RingVec.coeff_mul _ _ hk, RingVec.coeff_mul _ _ hk]

theorem ring_pkder (s : State) : (after .pkder s).ring 9 = (pkRecv s s.fa).2 := ring_setRing_self ..
theorem ring_spkder (s : State) : (after .spkder s).ring 15 = (pkSend s s.fa).2 := ring_setRing_self ..
theorem ring_enc (s : State) : (after .enc s).ring 17 = (noiseTerm s s.fa).add (s.ring Role.m) s.fa :=
  ring_setRing_self ..
theorem ring_dec (s : State) : (after .dec s).ring 18 = (noisy s s.fa).threshold := ring_setRing_self ..

/-- `p1[255]` is -1 with `fa = 1` and 0 with `fa = 0`. -/
theorem test_pkder (fa : Bool) : ((after .pkder (ringsState fa v8Rows)).ring 9).coeff 255 = if fa then -1 else 0 := by
  rw [ring_pkder, pkRecv, RingVec.coeff_add _ _ _ (by decide), coeff_pair _ _ _ _ _ (by decide), coeff_v8, coeff_v8,
    coeff_v8, coeff_v8, coeff_v8,
    show reduce (RingVec.mulAcc (sparseAt (v8Rows Role.t2)) (sparseAt (v8Rows Role.s0)) 256 255) = 0 by decide +kernel,
    show reduce (RingVec.mulAcc (sparseAt (v8Rows Role.t3)) (sparseAt (v8Rows Role.s1)) 256 255) = 0 by decide +kernel]
  cases fa <;> decide +kernel
/-- `u1[3]` is 1. -/
theorem test_spkder (fa : Bool) : ((after .spkder (ringsState fa v8Rows)).ring 15).coeff 3 = 1 := by
  rw [ring_spkder, pkSend, RingVec.coeff_add _ _ _ (by decide), coeff_pair _ _ _ _ _ (by decide), coeff_v8, coeff_v8,
    coeff_v8, coeff_v8, coeff_v8,
    show reduce (RingVec.mulAcc (sparseAt (v8Rows Role.t1)) (sparseAt (v8Rows Role.ss0)) 256 3) = 1 by decide +kernel,
    show reduce (RingVec.mulAcc (sparseAt (v8Rows Role.t3)) (sparseAt (v8Rows Role.ss1)) 256 3) = 0 by decide +kernel]
  cases fa <;> decide +kernel

/-- `c[4]` is 1664. -/
theorem test_enc (fa : Bool) : ((after .enc (ringsState fa v8Rows)).ring 17).coeff 4 = 1664 := by
  rw [ring_enc, noiseTerm, RingVec.coeff_add _ _ _ (by decide), coeff_pair _ _ _ _ _ (by decide), coeff_v8, coeff_v8,
    coeff_v8, coeff_v8, coeff_v8,
    show reduce (RingVec.mulAcc (sparseAt (v8Rows Role.ss0)) (sparseAt (v8Rows Role.p0)) 256 4) = -1 by decide +kernel,
    show reduce (RingVec.mulAcc (sparseAt (v8Rows Role.ss1)) (sparseAt (v8Rows Role.p1)) 256 4) = 0 by decide +kernel]
  cases fa <;> decide +kernel

/-- `w[4]` is -1664. -/
theorem test_dec (fa : Bool) : ((after .dec (ringsState fa v8Rows)).ring 18).coeff 4 = -1664 := by
  rw [ring_dec, noisy, predicted, RingVec.coeff_threshold _ (by decide), RingVec.coeff_sub _ _ _ (by decide),
    coeff_pair _ _ _ _ _ (by decide), coeff_v8, coeff_v8, coeff_v8, coeff_v8, coeff_v8,
    show reduce (RingVec.mulAcc (sparseAt (v8Rows Role.s0)) (sparseAt (v8Rows Role.u0)) 256 4) = 0 by decide +kernel,
    show reduce (RingVec.mulAcc (sparseAt (v8Rows Role.s1)) (sparseAt (v8Rows Role.u1)) 256 4) = -1 by decide +kernel]
  cases fa <;> decide +kernel

/-! ### MTHR (V7) -/

/-- The operand of V7 in RR31. -/
def v7Rows : RegNum → List (Nat × Int)
  | 31 => [(0, 832), (1, 833), (2, -832), (3, -833), (4, 1664), (5, -1664), (6, 1), (7, -1)]
  | _ => []

theorem test_mthr : [0, 1, 2, 3, 4, 5, 6, 7, 255].map ((after (.mthr 31 31) (ringsState false v7Rows)).ring 31).coeff =
    [0, -1664, 0, -1664, -1664, -1664, 0, 0, 0] := by decide +kernel

/-! ### MENC, MDEC (V6) -/

/-- "Hi" in MSG. -/
def hiMessage : State := steps 1 (script [store 0x020 0x00006948])

theorem test_menc : [0, 1, 4, 9, 10, 12, 15, 16].map ((after (.menc 16 2) hiMessage).ring 16).coeff =
    [0, -1664, -1664, -1664, -1664, -1664, -1664, 0] := by decide +kernel

/-- V6.3: `menc r16, 33` is refused at submission. -/
theorem test_menc_too_long : (steps 1 (script [store 0x00C 0x1E000021])).statusWord = 0x206 := by decide +kernel

/-- V6.4: 1664 and -1663 are no symbols. -/
def v6Rows : RegNum → List (Nat × Int)
  | 1 => [(1, -1663), (2, -1664)]
  | 16 => [(1, -1664), (4, -1664), (9, -1664), (10, -1664), (12, -1664), (15, -1664)]
  | _ => []

theorem test_mdec_symbols : (after (.mdec 1) (ringsState false v6Rows)).decLen = 1 ∧
    (after (.mdec 1) (ringsState false v6Rows)).msgByte 0 = 0x20 := by decide +kernel

/-- V6.4: MDEC of the "Hi" ring over an older message. -/
theorem test_mdec_hi :
    (after (.mdec 16) { ringsState false v6Rows with msg := messageOf fun _ => 0x44 }).msgWord 0 = 0x00006948 ∧
    (after (.mdec 16) { ringsState false v6Rows with msg := messageOf fun _ => 0x44 }).msgWord 1 = 0 ∧
    (after (.mdec 16) (ringsState false v6Rows)).decLen = 2 := by decide +kernel

/-! ### NOP and the lifecycle (V9) -/

/-- V9.1: from STATUS 2, acceptance gives 1 and completion 2. -/
theorem test_nop : (steps 1 { script [store 0x00C 0] with done := true }).statusWord = 1 ∧
    (steps 2 { script [store 0x00C 0] with done := true }).statusWord = 2 := by decide +kernel

/-- V9.2: a CMD write while BUSY. -/
theorem test_busy_submission : (steps 2 (script [store 0x00C 0x16600000, store 0x00C 0])).statusWord = 0x405 := by
  decide +kernel

/-- V9.3: the first error is kept, and 0x6 clears. -/
theorem test_first_error : (steps 1 (script [store 0x00C 0x28000000])).statusWord = 0x106 ∧
    (steps 2 (script [store 0x00C 0x28000000, store 0x00C 0x1E000021])).statusWord = 0x106 ∧
    (steps 3 (script [store 0x00C 0x28000000, store 0x00C 0x1E000021, store 0x008 6])).statusWord = 0 := by
  decide +kernel

/-! ### The register block (V11) and the interrupt and reset (V12) -/

/-- V11.1. -/
theorem test_id : (steps 1 (script [load 0x003])).readData = some 0x54534B01 := by decide +kernel

/-- V11.2 and P2: a coefficient goes in and comes out sign-extended; 5000 and -1665 are refused. -/
theorem test_window : (steps 3 (script [store 0x018 21, store 0xBF8 0xFFFFFFF0, load 0xBF8])).readData = some 0xFFFFFFF0 ∧
    (steps 1 (script [store 0x800 5000])).statusWord = 0x304 ∧
    (steps 1 (script [store 0x800 0xFFFFF97F])).statusWord = 0x304 ∧
    (steps 1 (script [store 0x800 0xFFFFF980])).statusWord = 0 := by decide +kernel

/-- V11.3. -/
theorem test_msg_lanes : hiMessage.msgByte 0 = 0x48 ∧ hiMessage.msgByte 1 = 0x69 ∧ hiMessage.msgByte 2 = 0 := by
  decide +kernel

/-- V11.4 and P6: a window read while RGEN waits. -/
theorem test_busy_lock : (steps 2 (script [store 0x00C 0x16600000, load 0x800])).readData = some 0 ∧
    (steps 2 (script [store 0x00C 0x16600000, load 0x800])).statusWord = 0x405 := by decide +kernel

/-- V12.2: `irq` is low while BUSY and high after completion. -/
theorem test_irq : (steps 2 (script [store 0x004 2, store 0x00C 0])).irq = false ∧
    (steps 3 (script [store 0x004 2, store 0x00C 0])).irq = true ∧
    (steps 4 (script [store 0x004 2, store 0x00C 0, .engine, store 0x008 2])).irq = false := by decide +kernel

/-- V12.3: reset during KGEN. -/
theorem test_reset_aborts : (steps 2 (script [store 0x00C 0x40000000, .rst true])).statusWord = 0 ∧
    (steps 2 (script [store 0x00C 0x40000000, .rst true])).need = 0 := by decide +kernel

/-! ### Witnesses: each obligation's hypotheses are met together, clause by clause -/

theorem witness_DecodeOfEncode_CanonicalTextAssembles : (Instr.rrot 31 31 65535).wellFormed = true := by decide

theorem witness_EncodeOfDecode : decode 0x13FFFFFF = .ok (.rrot 31 31 65535) := by decide

/-- R97 at its boundaries: (a) the ends of the two ranges, (b) the lowest and highest reserved bit of each kind. -/
theorem test_illegal_boundaries : [0x2BFFFFFF, 0x3C000000, 0x58000000, 0xFC000000, 0x04000001, 0x0C000400, 0x14000001,
    0x14100000, 0x1C010000, 0x1C100000, 0x20000001, 0x20008000, 0x24200000, 0x26000000, 0x24008000, 0x18000001,
    0x1A000000].all (fun w => reason w != none) = true := by decide

/-- One word of each kind: OPC 0x0A, and RADD with Z11 = 1. -/
theorem witness_IllegalWordsRaiseIllegal (w : Word) : (script [store 0x00C w]).turns = .host (.write 0x00C w) :: [] ∧
    (0x00C : Offset).toNat / 4 = 3 ∧ State.reset.rst = false ∧ State.reset.phase = .idle ∧
    (0x28000000 : Word).toNat / 2 ^ 26 = 0x0A ∧ (0x04221801 : Word).toNat / 2 ^ 26 = 1 ∧
    (0x04221801 : Word).toNat % 2 ^ 11 ≠ 0 := ⟨rfl, by decide, rfl, rfl, by decide, by decide, by decide⟩

theorem witness_PseudoInstructionsAreExact : 255 ≤ 255 ∧ 255 < 256 ∧ (sparse (v3Rows 5)).IsCanonical :=
  ⟨by decide, by decide, isCanonical_sparse _ (by decide)⟩

/-- With the engine's turn listed, and with no turn listed. -/
theorem witness_EngineTurnRunsLatchedCommand (ts : List Turn) (h : ts = [] ∨ ts = [.engine, store 0x00C 0]) :
    { busy 0x0C631800 0 [] with turns := ts }.rst = false ∧ { busy 0x0C631800 0 [] with turns := ts }.phase = .busy ∧
    { busy 0x0C631800 0 [] with turns := ts }.need = 0 ∧
    { busy 0x0C631800 0 [] with turns := ts }.cmd = some 0x0C631800 ∧ decode 0x0C631800 = .ok (.rmul 3 3 3) ∧
    ({ busy 0x0C631800 0 [] with turns := ts }.turns = [] ∨
      { busy 0x0C631800 0 [] with turns := ts }.turns.head? = some .engine) :=
  ⟨rfl, rfl, rfl, rfl, by decide, by rcases h with rfl | rfl <;> simp⟩

theorem witness_FetchWordRunsDecodedCommand :
    decodeTableWord 32 0x40000000 = some .kgen ∧ decodeTableWord 32 0x40000001 = none := by decide

/-- Busy; idle and illegal; idle and too long, at 33; idle and accepted, at 32. -/
theorem witness_SubmissionRefusesOrAccepts :
    (0x00C : Offset).toNat / 4 = 3 ∧ (busy 0x16600000 256 []).phase = .busy ∧ State.reset.phase = .idle ∧
    (busy 0x16600000 256 []).rst = false ∧ (script [store 0x00C 0]).turns = [.host (.write 0x00C 0)] ∧
    decode 0x00000001 = .error .reservedField ∧ decode 0x1E000021 = .ok (.menc 16 33) ∧ 32 < 33 ∧
    decode 0x1E000020 = .ok (.menc 16 32) := by
  refine ⟨by decide, rfl, rfl, rfl, rfl, ?_, ?_, ?_, ?_⟩ <;> decide +kernel

/-- Two states that agree on what a command reads, and differ elsewhere. -/
theorem witness_CompletionReadsOnlyItsOperands :
    submissionError .kgen = none ∧ (busy 0x40000000 0 []).rr = (busy 0x40000000 0 [0b01]).rr ∧
    (busy 0x40000000 0 []).scalarIn = (busy 0x40000000 0 [0b01]).scalarIn ∧
    (busy 0x40000000 0 []).msg = (busy 0x40000000 0 [0b01]).msg ∧
    (busy 0x40000000 0 []).fa = (busy 0x40000000 0 [0b01]).fa ∧
    (busy 0x40000000 0 []).drawbuf = (busy 0x40000000 0 [0b01]).drawbuf ∧
    (busy 0x40000000 0 []).entropy ≠ (busy 0x40000000 0 [0b01]).entropy := ⟨rfl, rfl, rfl, rfl, rfl, rfl, by decide⟩

theorem ringsCanonical_reset : State.reset.RingsCanonical := by
  intro r
  have h : State.reset.ring r = RingVec.zero := by
    apply RingVec.ext_coeff
    intro k hk
    rw [RingVec.coeff_zero, RingVec.coeff_of_lt _ hk]
    simp [State.ring, State.reset]
  rw [h]
  exact RingVec.isCanonical_tabulate fun _ _ => by decide

/-- A busy engine with RGEN latched has the invariant, with any codes on offer and any turns to come. -/
theorem inv_busy_rgen (codes : List Code) (ts : List Turn) :
    { busy 0x16600000 256 codes with turns := ts }.Inv where
  rings := ringsCanonical_of_rr ringsCanonical_reset rfl
  scalarOut := show Canonical (0 : Word).toInt by decide
  decLen := show (0 : BitVec 6).toNat ≤ 32 by decide
  errcode := ⟨⟨fun _ => rfl, fun _ => rfl⟩, show ErrCode.none ≠ ErrCode.shape by decide⟩
  idle := fun h => by cases h
  busy := fun _ => ⟨rfl, .rgen 19, ⟨_, rfl, by decide, rfl⟩, rfl⟩
  inReset := fun h => by cases h

theorem witness_EngineStepsRaiseNoError : (busy 0x16600000 256 [0b01]).Inv ∧ (busy 0x16600000 256 [0b01]).rst = false :=
  ⟨inv_busy_rgen _ [], rfl⟩

/-- V5.1's stream: one code that is rejected, and exactly as many others as are needed. -/
theorem witness_CommandCompletesGivenDraws :
    (busy 0x16600000 256 (0b10 :: List.replicate 256 0b01)).Inv ∧
    (busy 0x16600000 256 (0b10 :: List.replicate 256 0b01)).rst = false ∧
    (busy 0x16600000 256 (0b10 :: List.replicate 256 0b01)).turns = [] ∧
    (busy 0x16600000 256 (0b10 :: List.replicate 256 0b01)).phase = .busy ∧
    (busy 0x16600000 256 (0b10 :: List.replicate 256 0b01)).need ≤
      ((busy 0x16600000 256 (0b10 :: List.replicate 256 0b01)).entropy.filter (fun c => c ≠ 0b10)).length :=
  ⟨inv_busy_rgen _ [], rfl, rfl, rfl, by decide +kernel⟩

/-- The same codes, with a transaction, an engine turn and a release of `rst` before them. -/
theorem witness_CommandCompletesAmidTurns :
    { busy 0x16600000 256 (List.replicate 256 0b01) with turns := [load 0x800, .engine, .rst false] }.Inv ∧
    { busy 0x16600000 256 (List.replicate 256 0b01) with turns := [load 0x800, .engine, .rst false] }.rst = false ∧
    Turn.rst true ∉
      { busy 0x16600000 256 (List.replicate 256 0b01) with turns := [load 0x800, .engine, .rst false] }.turns ∧
    { busy 0x16600000 256 (List.replicate 256 0b01) with turns := [load 0x800, .engine, .rst false] }.phase = .busy ∧
    256 ≤ ((List.replicate 256 (0b01 : Code)).filter (fun c => c ≠ 0b10)).length :=
  ⟨inv_busy_rgen _ _, rfl, by decide, rfl, by decide +kernel⟩

theorem witness_EntropyStallNeverCompletes :
    { busy 0x16600000 256 [0b10, 0b10] with turns := [load 0x008, .engine] }.rst = false ∧
    { busy 0x16600000 256 [0b10, 0b10] with turns := [load 0x008, .engine] }.phase = .busy ∧
    0 < { busy 0x16600000 256 [0b10, 0b10] with turns := [load 0x008, .engine] }.need ∧
    (∀ c ∈ { busy 0x16600000 256 [0b10, 0b10] with turns := [load 0x008, .engine] }.entropy, c = 0b10) ∧
    Turn.rst true ∉ { busy 0x16600000 256 [0b10, 0b10] with turns := [load 0x008, .engine] }.turns :=
  ⟨rfl, rfl, by decide, by decide, by decide⟩

theorem witness_RrotMovesAndNegatesWrapped : ((ringsState false v3Rows).ring 5).IsCanonical := by
  rw [ring_ringsState]
  exact isCanonical_sparse _ (by decide)

theorem witness_RingLaws : (sparse (v3Rows 5)).IsCanonical ∧ 255 < 256 :=
  ⟨isCanonical_sparse _ (by decide), by decide⟩

/-- The three commands run from V8's rows, in both settings of `fa`. -/
theorem witness_RoundTripNoise (fa : Bool) : ∃ t1 t2 t3 : State, (ringsState fa v8Rows).fa = fa ∧
    exec .pkder (ringsState fa v8Rows) = .next t1 ∧ exec .spkder t1 = .next t2 ∧ exec .enc t2 = .next t3 :=
  ⟨_, _, _, rfl, rfl, rfl, rfl⟩

/-- Each way to make the keys, in both settings of `fa`, with nothing between the commands. -/
theorem witness_RoundTripNoiseOfAnyKeys (i j : Instr) (fa : Bool) (hi : i = .kgen ∨ i = .pkder)
    (hj : j = .sgen ∨ j = .spkder) : ∃ t1 t2 t3 : State, (ringsState fa v8Rows).fa = fa ∧ t1.fa = fa ∧ t2.fa = fa ∧
    t3.fa = fa ∧ exec i (ringsState fa v8Rows) = .next t1 ∧ exec j t1 = .next t2 ∧ exec .enc t2 = .next t3 := by
  rcases hi with rfl | rfl <;> rcases hj with rfl | rfl <;>
    exact ⟨_, _, _, rfl, rfl, rfl, rfl, rfl, rfl, rfl⟩

/-- At the ends of the two decision intervals; and two ternary rings. -/
theorem witness_DecisionMargin : Canonical (-832) ∧ Canonical 831 ∧ Canonical 832 ∧ Canonical 1664 ∧ Canonical (-1664) ∧
    (sparse [(0, 1), (255, -1)]).IsTernary := by
  refine ⟨by decide, by decide, by decide, by decide, by decide, fun k _ => ?_⟩
  rw [coeff_sparse _ (by decide)]
  unfold sparseAt
  rw [List.lookup_cons]
  split
  · decide
  · rw [List.lookup_cons]
    split <;> simp

/-- At both sides of the length bound. -/
theorem witness_MencEncodesMessage : 32 ≤ 32 ∧ 32 < 33 := by decide

theorem witness_CodecRoundTrip : (List.replicate 32 (0x61 : Byte)).length ≤ 32 := by decide

theorem witness_TransactionsCompleteAndIgnoreLowBits :
    (script [load 0x003]).turns = .host (.read 0x003) :: [] ∧
    (0x003 : Offset).toNat / 4 = (0x000 : Offset).toNat / 4 := ⟨rfl, by decide⟩

/-- The first and the last coefficient. -/
theorem witness_WindowReadsCoefficient (off : Offset) (i : Nat) (h : (off, i) = (0x800, 0) ∨ (off, i) = (0xBFC, 255)) :
    i < 256 ∧ off.toNat / 4 = 0x200 + i ∧ (script [load off]).turns = .host (.read off) :: [] ∧
    (script [load off]).rst = false ∧ (script [load off]).phase = .idle := by
  rcases h with h | h <;> cases h <;> exact ⟨by decide, by decide, rfl, rfl, rfl⟩

/-- Both clauses, at the ends of the range (V11.2). -/
theorem witness_WindowWritesCanonicalOnly (v : Word) :
    255 < 256 ∧ (0xBFC : Offset).toNat / 4 = 0x200 + 255 ∧ (script [store 0xBFC v]).turns = .host (.write 0xBFC v) :: [] ∧
    (script [store 0xBFC v]).rst = false ∧ (script [store 0xBFC v]).phase = .idle ∧
    Canonical (0xFFFFF980 : Word).toInt ∧ Canonical (0x00000680 : Word).toInt ∧ ¬Canonical (0xFFFFF97F : Word).toInt ∧
    ¬Canonical (0x00000681 : Word).toInt := ⟨by decide, by decide, rfl, rfl, rfl, by decide, by decide, by decide, by decide⟩

/-- MSG0 and MSG7, read and written. -/
theorem witness_MessageBufferAccess (v : Word) :
    0 < 8 ∧ (0x020 : Offset).toNat / 4 = 8 + 0 ∧ 7 < 8 ∧ (0x03C : Offset).toNat / 4 = 8 + 7 ∧
    State.reset.rst = false ∧ State.reset.phase = .idle ∧ (script [load 0x03C]).turns = .host (.read 0x03C) :: [] ∧
    (script [store 0x03C v]).turns = .host (.write 0x03C v) :: [] :=
  ⟨by decide, by decide, by decide, by decide, rfl, rfl, rfl, rfl⟩

/-- The four ends of the data group, read and written. -/
theorem witness_BusyLocksDataGroup (v : Word) :
    ([0x010, 0x03C, 0x800, 0xBFF] : List Offset).map (fun off => off.toNat / 4) = [4, 15, 0x200, 0x2FF] ∧
    (busy 0x16600000 256 []).rst = false ∧ (busy 0x16600000 256 []).phase = .busy ∧
    { busy 0x16600000 256 [] with turns := [load 0x800] }.turns = .host (.read 0x800) :: [] ∧
    { busy 0x16600000 256 [] with turns := [store 0x010 v] }.turns = .host (.write 0x010 v) :: [] :=
  ⟨by decide, rfl, rfl, rfl, rfl⟩

/-- The ends of the reserved ranges; CMD read; ID, SCALAR_OUT and DEC_LEN written. -/
theorem witness_ReservedAndReadOnlyOffsets (off : Offset) (v : Word) :
    ([0x040, 0x7FF, 0xC00, 0xFFF] : List Offset).map (fun off => off.toNat / 4) = [0x10, 0x1FF, 0x300, 0x3FF] ∧
    (0x00C : Offset).toNat / 4 = 3 ∧ (0x000 : Offset).toNat / 4 = 0 ∧ (0x014 : Offset).toNat / 4 = 5 ∧
    (0x01C : Offset).toNat / 4 = 7 ∧ State.reset.rst = false ∧ State.reset.phase = .idle ∧
    (script [load off]).turns = .host (.read off) :: [] ∧
    (script [store off v]).turns = .host (.write off v) :: [] :=
  ⟨by decide, by decide, by decide, by decide, by decide, rfl, rfl, rfl, rfl⟩

theorem witness_IdAndCtrlAccess (off : Offset) (v : Word) : (0x000 : Offset).toNat / 4 = 0 ∧ (0x004 : Offset).toNat / 4 = 1 ∧
    (busy 0x16600000 256 []).rst = false ∧ (script [load off]).turns = .host (.read off) :: [] ∧
    (script [store off v]).turns = .host (.write off v) :: [] := ⟨by decide, by decide, rfl, rfl, rfl⟩

theorem witness_StatusReadAndAcknowledge (v : Word) : (0x008 : Offset).toNat / 4 = 2 ∧ State.reset.rst = false ∧
    (script [load 0x008]).turns = .host (.read 0x008) :: [] ∧
    (script [store 0x008 v]).turns = .host (.write 0x008 v) :: [] := ⟨by decide, rfl, rfl, rfl⟩

/-- Each of the four registers, read; SCALAR_IN and WIN_SEL written. -/
theorem witness_DataRegisterAccess (off : Offset) (v : Word) :
    (0x010 : Offset).toNat / 4 = 4 ∧ (0x014 : Offset).toNat / 4 = 5 ∧ (0x018 : Offset).toNat / 4 = 6 ∧
    (0x01C : Offset).toNat / 4 = 7 ∧ State.reset.rst = false ∧ State.reset.phase = .idle ∧
    (script [load off]).turns = .host (.read off) :: [] ∧ (script [store off v]).turns = .host (.write off v) :: [] ∧
    (0 : Word) = State.reset.scalarIn ∧ (0 : Word).toNat = State.reset.winSel.val :=
  ⟨by decide, by decide, by decide, by decide, rfl, rfl, rfl, rfl, rfl, rfl⟩

theorem witness_FirstErrorIsKept : State.reset.err = false ∧ (raiseError .busy State.reset).err = true := ⟨rfl, rfl⟩

theorem witness_IrqFollowsPendingBits : exec .nop State.reset = .next (complete State.reset) := rfl

/-- Asserting in the middle of a command; and, while asserted, each turn. -/
theorem witness_ResetAbortsAndHolds (t : Turn) :
    { busy 0x40000000 1948 [0b01] with turns := [.rst true] }.turns = .rst true :: [] ∧
    { script [t] with rst := true }.rst = true ∧ { script [t] with rst := true }.turns = t :: [] := ⟨rfl, rfl, rfl⟩

/-- Nothing offered, 0b10 offered, and each usable code offered. -/
theorem witness_OfferedCodeIsConsumed (codes : List Code) :
    (busy 0x16600000 256 codes).rst = false ∧ (busy 0x16600000 256 codes).turns = [] ∧
    (busy 0x16600000 256 codes).phase = .busy ∧ 0 < (busy 0x16600000 256 codes).need ∧
    (busy 0x16600000 256 codes).entropy = codes := ⟨rfl, rfl, rfl, show 0 < 256 by decide, rfl⟩

/-- V5.1's whole stream: the last code offered is the last one needed. -/
theorem witness_DrawsArriveInOrder :
    (busy 0x16600000 256 (0b10 :: 0b11 :: List.replicate 255 0b01)).rst = false ∧
    (busy 0x16600000 256 (0b10 :: 0b11 :: List.replicate 255 0b01)).turns = [] ∧
    (busy 0x16600000 256 (0b10 :: 0b11 :: List.replicate 255 0b01)).phase = .busy ∧
    (busy 0x16600000 256 (0b10 :: 0b11 :: List.replicate 255 0b01)).entropy =
      (0b10 :: 0b11 :: List.replicate 255 0b01) ++ [] ∧
    (0b10 :: 0b11 :: List.replicate 255 (0b01 : Code)) ≠ [] ∧
    ((0b10 :: 0b11 :: List.replicate 255 (0b01 : Code)).dropLast.filterMap drawOfCode).length <
      (busy 0x16600000 256 (0b10 :: 0b11 :: List.replicate 255 0b01)).need :=
  ⟨rfl, rfl, rfl, (List.append_nil _).symm, List.cons_ne_nil _ _, by decide +kernel⟩

/-- A busy engine, a host transaction that raises an error and a draw: the steps of a run that keep the invariant. -/
theorem witness_StepKeepsInvariant_RunsNeverStop :
    { busy 0x16600000 256 [0b01] with turns := [load 0x800, .engine] }.Inv ∧
    ∃ t, step { busy 0x16600000 256 [0b01] with turns := [load 0x800, .engine] } = .next t :=
  ⟨inv_busy_rgen _ _, _, rfl⟩

theorem witness_RingsStayCanonical_TemporariesAreUnobservable : State.reset.RingsCanonical ∧
    ∃ t, step (State.reset.withFetchWord 32 0x0C631800) = .next t := ⟨ringsCanonical_reset, _, rfl⟩

end Sys2Proof.Tests
end

/-! ### The state after reset (R50) -/

namespace Sys2Proof.Machine

@[simp] theorem coeff_ring_reset (r : RegNum) (k : Nat) : (State.reset.ring r).coeff k = 0 := by
  by_cases hk : k < 256
  · simp [RingVec.coeff_of_lt _ hk, State.ring, State.reset]
  · exact RingVec.coeff_of_ge _ (Nat.not_lt.mp hk)

theorem reset_ringsCanonical : State.reset.RingsCanonical := fun r k _ => by
  rw [coeff_ring_reset]
  decide

end Sys2Proof.Machine

/-! ### What a step can do -/

namespace Sys2Proof.Machine

variable {s t : State}

/-- A step is a transaction, the engine's turn or a change of the reset input, the turn taken off the list (R78). -/
theorem step_cases (h : step s = .next t) :
    (∃ tx, t = runTransaction tx (afterTurn s)) ∨ engineTurn (afterTurn s) = .next t ∨
    (∃ level, t = setRst level (afterTurn s)) := by
  rw [step] at h
  cases hturn : turnOf s with
  | host tx =>
    rw [hturn] at h
    exact .inl ⟨tx, (Host.Outcome.next.inj h).symm⟩
  | engine =>
    rw [hturn] at h
    exact .inr (.inl h)
  | rst level =>
    rw [hturn] at h
    exact .inr (.inr ⟨level, (Host.Outcome.next.inj h).symm⟩)

theorem setRst_cases (level : Bool) (s : State) :
    (level = false ∧ s.rst = false ∧ setRst level s = s) ∨ setRst level s = { applyReset s with rst := level } := by
  cases level with
  | true => exact .inr rfl
  | false =>
    cases hr : s.rst with
    | true => exact .inr (setRst_release hr)
    | false => exact .inl ⟨rfl, rfl, setRst_idle hr⟩

/-- Everything that a read can do: nothing but its answer while `rst` is asserted, the busy lock's error, or the
register's word (R62, R74, R250). -/
theorem hostRead_cases (off : Offset) (s : State) :
    (s.rst = true ∧ hostRead off s =
      { applyReset s with readData := some (if hostReg off = .id then Config.idValue else 0) }) ∨
    (s.rst = false ∧ locked (hostReg off) s = true ∧
      hostRead off s = { raiseError .busy s with readData := some 0 }) ∨
    (s.rst = false ∧ locked (hostReg off) s = false ∧
      hostRead off s = { s with readData := some (registerWord s (hostReg off)) }) := by
  cases hr : s.rst with
  | true => exact .inl ⟨rfl, hostRead_rst off hr⟩
  | false =>
    cases hl : locked (hostReg off) s with
    | true => exact .inr (.inl ⟨rfl, rfl, by rw [hostRead_locked off hr hl]⟩)
    | false => exact .inr (.inr ⟨rfl, rfl, by rw [hostRead_open off hr hl, hr]⟩)

/-- Everything that a write can do (R62, R74, R250). -/
theorem hostWrite_cases (off : Offset) (v : Word) (s : State) :
    (s.rst = true ∧ hostWrite off v s = applyReset s) ∨
    (s.rst = false ∧ locked (hostReg off) s = true ∧ hostWrite off v s = raiseError .busy s) ∨
    (s.rst = false ∧ locked (hostReg off) s = false ∧ hostWrite off v s = writeRegister (hostReg off) v s) := by
  cases hr : s.rst with
  | true => exact .inl ⟨rfl, hostWrite_rst off v hr⟩
  | false =>
    cases hl : locked (hostReg off) s with
    | true => exact .inr (.inl ⟨rfl, rfl, hostWrite_locked off v hr hl⟩)
    | false => exact .inr (.inr ⟨rfl, rfl, hostWrite_open off v hr hl⟩)

/-! ### The rings stay canonical (R22) -/

/-- The receiver's public key is two ring sums, so writing it keeps the rings canonical (R173, R177). -/
theorem State.RingsCanonical.setPkRecv (h : s.RingsCanonical) (fa : Bool) :
    ((s.setRing Role.p0 (pkRecv s fa).1).setRing Role.p1 (pkRecv s fa).2).RingsCanonical :=
  ringsCanonical_setRing (ringsCanonical_setRing h _ (RingVec.isCanonical_add _ _ fa)) _ (RingVec.isCanonical_add _ _ fa)

/-- The sender's public key likewise (R174, R179). -/
theorem State.RingsCanonical.setPkSend (h : s.RingsCanonical) (fa : Bool) :
    ((s.setRing Role.u0 (pkSend s fa).1).setRing Role.u1 (pkSend s fa).2).RingsCanonical :=
  ringsCanonical_setRing (ringsCanonical_setRing h _ (RingVec.isCanonical_add _ _ fa)) _ (RingVec.isCanonical_add _ _ fa)

/-- The end of a completion writes no ring register (R123). -/
theorem State.RingsCanonical.complete (h : s.RingsCanonical) : (complete s).RingsCanonical := ringsCanonical_of_rr h rfl

theorem State.RingsCanonical.disturbTemporaries (h : s.RingsCanonical) : (disturbTemporaries s).RingsCanonical :=
  ringsCanonical_of_rr h rfl

theorem exec_menc_tooLong (rd : RegNum) {len : Nat} (h : lengthTooLong len = true) (s : State) :
    exec (.menc rd len) s = .next (refuseLatched .tooLong s) := by
  rw [exec, execMenc, if_pos h]

theorem exec_menc_fits (rd : RegNum) {len : Nat} (h : lengthTooLong len = false) (s : State) :
    exec (.menc rd len) s = .next (complete (s.setRing rd (RingVec.ofBytes s.msgByte len))) := by
  rw [exec, execMenc, h, if_neg Bool.false_ne_true]

/-- Every command writes canonical rings only. -/
theorem exec_ringsCanonical {i : Instr} (hs : s.RingsCanonical) (h : exec i s = .next t) : t.RingsCanonical := by
  have completes : ∃ u, exec i s = .next u ∧ u.RingsCanonical := by
    cases i with
    | nop => exact ⟨_, rfl, hs.complete⟩
    | sred => exact ⟨_, rfl, (ringsCanonical_of_rr hs rfl).complete⟩
    | mdec r => exact ⟨_, exec_mdec s r, (ringsCanonical_of_rr hs (State.setMessage_rr s _)).complete⟩
    | radd rd rs1 rs2 =>
      exact ⟨_, rfl, (ringsCanonical_setRing hs rd (RingVec.isCanonical_add _ _ s.fa)).complete⟩
    | rsub rd rs1 rs2 =>
      exact ⟨_, rfl, (ringsCanonical_setRing hs rd (RingVec.isCanonical_sub _ _ s.fa)).complete⟩
    | rmul rd rs1 rs2 =>
      exact ⟨_, rfl, (ringsCanonical_setRing hs rd (RingVec.isCanonical_mul _ _)).disturbTemporaries.complete⟩
    | rrot rd rs1 imm =>
      exact ⟨_, rfl, (ringsCanonical_setRing hs rd (RingVec.isCanonical_rotateRight (hs rs1) _)).complete⟩
    | rgen rd => exact ⟨_, rfl, (ringsCanonical_setRing hs rd (isCanonical_drawRow s 0)).complete⟩
    | mthr rd rs1 => exact ⟨_, rfl, (ringsCanonical_setRing hs rd (RingVec.isCanonical_threshold _)).complete⟩
    | menc rd len =>
      cases hl : lengthTooLong len with
      | true => exact ⟨_, exec_menc_tooLong rd hl s, ringsCanonical_of_rr hs rfl⟩
      | false =>
        exact ⟨_, exec_menc_fits rd hl s, (ringsCanonical_setRing hs rd (RingVec.isCanonical_ofBytes _ _)).complete⟩
    | kgen =>
      have rows := ringsCanonical_fillRows s kgenRows 0 s hs
      exact ⟨_, rfl, (rows.setPkRecv _).disturbTemporaries.complete⟩
    | pkder => exact ⟨_, rfl, (hs.setPkRecv _).disturbTemporaries.complete⟩
    | sgen =>
      have rows := ringsCanonical_fillRows s sgenRows 0 s hs
      exact ⟨_, rfl, (rows.setPkSend _).disturbTemporaries.complete⟩
    | spkder => exact ⟨_, rfl, (hs.setPkSend _).disturbTemporaries.complete⟩
    | enc => exact ⟨_, rfl, (ringsCanonical_setRing hs _ (RingVec.isCanonical_add _ _ s.fa)).disturbTemporaries.complete⟩
    | dec => exact ⟨_, rfl, (ringsCanonical_setRing hs _ (RingVec.isCanonical_threshold _)).disturbTemporaries.complete⟩
  obtain ⟨u, hu, canonical⟩ := completes
  obtain rfl := Host.Outcome.next.inj (hu.symm.trans h)
  exact canonical

/-- A write of the window is checked before it changes a coefficient (R72); no other register holds a ring. -/
theorem writeRegister_ringsCanonical (hs : s.RingsCanonical) (r : HostReg) (v : Word) :
    (writeRegister r v s).RingsCanonical := by
  cases r with
  | win i =>
    cases hv : inWindowRange v with
    | true =>
      rw [writeRegister, hv, if_pos rfl]
      exact ringsCanonical_setCoeff hs _ i ((inWindowRange_iff v).mp hv)
    | false =>
      rw [writeRegister, hv]
      exact hs
  | cmd => exact ringsCanonical_of_rr hs (rr_submit v s)
  | msg w => exact ringsCanonical_of_rr hs (State.setMsgWord_rr s w v)
  | _ => exact hs

theorem applyReset_ringsCanonical (s : State) : (applyReset s).RingsCanonical := reset_ringsCanonical

theorem runTransaction_ringsCanonical (hs : s.RingsCanonical) (tx : Transaction) :
    (runTransaction tx s).RingsCanonical := by
  cases tx with
  | read off =>
    obtain ⟨_, h⟩ | ⟨_, _, h⟩ | ⟨_, _, h⟩ := hostRead_cases off s <;> rw [runTransaction, h]
    · exact applyReset_ringsCanonical s
    · exact hs
    · exact hs
  | write off v =>
    obtain ⟨_, h⟩ | ⟨_, _, h⟩ | ⟨_, _, h⟩ := hostWrite_cases off v s <;> rw [runTransaction, h]
    · exact applyReset_ringsCanonical s
    · exact hs
    · exact writeRegister_ringsCanonical hs _ v

@[simp] theorem rr_takeCode (s : State) : (takeCode s).rr = s.rr := by
  obtain ⟨_, h⟩ | ⟨_, _, _, _, h⟩ | ⟨_, _, _, _, _, h⟩ := takeCode_cases s <;> rw [h]

theorem engineTurn_ringsCanonical (hs : s.RingsCanonical) (h : engineTurn s = .next t) : t.RingsCanonical := by
  obtain ⟨_, rfl⟩ | ⟨_, _, rfl⟩ | ⟨_, _, _, rfl⟩ | ⟨_, _, _, w, i, _, _, hx⟩ | ⟨_, _, _, w, e, _, _, rfl⟩ :=
    engineTurn_cases h
  · exact applyReset_ringsCanonical s
  · exact hs
  · exact ringsCanonical_of_rr hs (rr_takeCode s)
  · exact exec_ringsCanonical hs hx
  · exact hs

theorem setRst_ringsCanonical (hs : s.RingsCanonical) (level : Bool) : (setRst level s).RingsCanonical := by
  obtain ⟨_, _, h⟩ | h := setRst_cases level s <;> rw [h]
  · exact hs
  · exact applyReset_ringsCanonical s

theorem step_ringsCanonical (hs : s.RingsCanonical) (h : step s = .next t) : t.RingsCanonical := by
  obtain ⟨tx, rfl⟩ | h | ⟨level, rfl⟩ := step_cases h
  · exact runTransaction_ringsCanonical (s := afterTurn s) hs tx
  · exact engineTurn_ringsCanonical (s := afterTurn s) hs h
  · exact setRst_ringsCanonical (s := afterTurn s) hs level

/-- Settles O55: each kind of turn keeps the rings canonical. -/
theorem ringsStayCanonical : Obligations.RingsStayCanonical :=
  ⟨reset_ringsCanonical, fun _ _ => step_ringsCanonical⟩

end Sys2Proof.Machine

/-! ### The invariant of the machine -/

namespace Sys2Proof.Machine

variable {s t : State}

/-- The state that reset leaves has the invariant, whatever the temporaries, the inputs and the last answer are. -/
theorem inv_resetValues (gen : Nat) (level : Bool) (codes : List Code) (ts : List Turn) (d : Option Word) :
    { State.reset with tempGen := gen, rst := level, entropy := codes, turns := ts, readData := d }.Inv where
  rings := ringsCanonical_of_rr reset_ringsCanonical rfl
  scalarOut := show Canonical (0 : Word).toInt by decide
  decLen := show (0 : BitVec 6).toNat ≤ 32 by decide
  errcode := ⟨⟨fun _ => rfl, fun _ => rfl⟩, nofun⟩
  idle := fun _ => ⟨rfl, rfl⟩
  busy := nofun
  inReset := fun h => by rw [show level = true from h]

theorem applyReset_inv (s : State) : (applyReset s).Inv := inv_resetValues ..

/-- With `rst` released, the invariant's last clause holds of any state. -/
theorem inReset_of_released {P : Prop} (hr : s.rst = false) : s.rst = true → P := fun h =>
  absurd (hr.symm.trans h) Bool.false_ne_true

theorem inv_afterTurn (hs : s.Inv) : (afterTurn s).Inv :=
  { hs with inReset := fun h => congrArg afterTurn (hs.inReset h) }

theorem inv_readData (hs : s.Inv) (d : Option Word) : { s with readData := d }.Inv :=
  { hs with inReset := fun h => congrArg (fun u : State => { u with readData := d }) (hs.inReset h) }

/-! #### Errors and submission -/

/-- Recording an error keeps the first one, and leaves ERR 1 with a code that is not 0 (R223). -/
theorem errcode_raiseError (hs : s.Inv) {code : ErrCode} (hc : code ≠ .none ∧ code ≠ .shape) :
    ((raiseError code s).err = false ↔ (raiseError code s).errcode = .none) ∧
      (raiseError code s).errcode ≠ .shape := by
  have first := hs.errcode
  cases he : s.err with
  | false => simpa [he] using hc
  | true => simpa [he] using first

theorem raiseError_inv (hs : s.Inv) (hr : s.rst = false) {code : ErrCode} (hc : code ≠ .none ∧ code ≠ .shape) :
    (raiseError code s).Inv :=
  { hs with errcode := errcode_raiseError hs hc, inReset := inReset_of_released hr }

theorem refuse_inv (hs : s.Inv) (hr : s.rst = false) (hp : s.phase = .idle) {code : ErrCode}
    (hc : code ≠ .none ∧ code ≠ .shape) : (refuse code s).Inv :=
  { raiseError_inv hs hr hc with
    busy := fun hb => nomatch hp.symm.trans hb
    inReset := inReset_of_released hr }

theorem accept_inv (hs : s.Inv) (hr : s.rst = false) {v : Word} {i : Instr} (hd : decode v = .ok i)
    (he : submissionError i = none) : (accept v (drawsNeeded i) s).Inv :=
  { hs with
    idle := nofun
    busy := fun _ => ⟨rfl, i, ⟨v, rfl, hd, he⟩, rfl⟩
    inReset := inReset_of_released hr }

theorem submit_inv (hs : s.Inv) (hr : s.rst = false) (v : Word) : (submit v s).Inv := by
  obtain ⟨_, h⟩ | ⟨hp, _, h⟩ | ⟨hp, i, code, _, he, h⟩ | ⟨_, i, hd, he, h⟩ := submit_cases v s <;> rw [h]
  · exact raiseError_inv hs hr (by decide)
  · exact refuse_inv hs hr hp (by decide)
  · exact refuse_inv hs hr hp (by rw [submissionError_eq he]; decide)
  · exact accept_inv hs hr hd he

/-! #### Transactions -/

theorem writeStatus_inv (hs : s.Inv) (hr : s.rst = false) (v : Word) : (s.writeStatus v).Inv :=
  { hs with
    errcode := by
      rw [State.writeStatus_err, State.writeStatus_errcode]
      cases v.getLsbD 2 with
      | false => simpa using hs.errcode
      | true => simp
    busy := fun hp => ⟨by rw [State.writeStatus_done, (hs.busy hp).1, Bool.false_and], (hs.busy hp).2⟩
    inReset := inReset_of_released hr }

theorem writeRegister_inv (hs : s.Inv) (hr : s.rst = false) (r : HostReg) (v : Word) : (writeRegister r v s).Inv := by
  have rings := writeRegister_ringsCanonical hs.rings r v
  cases r with
  | id => exact hs
  | ctrl => exact { hs with inReset := inReset_of_released hr }
  | status => exact writeStatus_inv hs hr v
  | cmd => exact submit_inv hs hr v
  | scalarIn => exact { hs with inReset := inReset_of_released hr }
  | scalarOut => exact hs
  | winSel => exact { hs with inReset := inReset_of_released hr }
  | decLen => exact hs
  | msg w => exact { hs with inReset := inReset_of_released hr }
  | win i =>
    cases hv : inWindowRange v with
    | true =>
      rw [writeRegister, hv] at rings ⊢
      exact { hs with rings := rings, inReset := inReset_of_released hr }
    | false =>
      rw [writeRegister, hv]
      exact raiseError_inv hs hr (by decide)
  | reserved => exact hs

theorem runTransaction_inv (hs : s.Inv) (tx : Transaction) : (runTransaction tx s).Inv := by
  cases tx with
  | read off =>
    obtain ⟨_, h⟩ | ⟨hr, _, h⟩ | ⟨_, _, h⟩ := hostRead_cases off s <;> rw [runTransaction, h]
    · exact inv_readData (applyReset_inv s) _
    · exact inv_readData (raiseError_inv hs hr (by decide)) _
    · exact inv_readData hs _
  | write off v =>
    obtain ⟨_, h⟩ | ⟨hr, _, h⟩ | ⟨hr, _, h⟩ := hostWrite_cases off v s <;> rw [runTransaction, h]
    · exact applyReset_inv s
    · exact raiseError_inv hs hr (by decide)
    · exact writeRegister_inv hs hr _ v

/-! #### The engine's turn -/

@[simp] theorem fillRows_scalarOut (u s : State) (l : List RegNum) (n : Nat) :
    (fillRows u l n s).scalarOut = s.scalarOut := by
  rw [fillRows_of_rr (s := s) l n rfl]

@[simp] theorem fillRows_decLen (u s : State) (l : List RegNum) (n : Nat) : (fillRows u l n s).decLen = s.decLen := by
  rw [fillRows_of_rr (s := s) l n rfl]

/-- SRED alone writes SCALAR_OUT, with a representative (R143), and MDEC alone DEC_LEN, with a number of bytes (R203). -/
theorem exec_scalarOut_decLen (i : Instr) (s : State) : ∃ t, exec i s = .next t ∧
    (t.scalarOut = s.scalarOut ∨ t.scalarOut = BitVec.ofInt 32 (reduce s.scalarValue)) ∧
    (t.decLen = s.decLen ∨ ∃ r, t.decLen = BitVec.ofNat 6 (s.ring r).toBytes.length) := by
  cases i with
  | sred => exact ⟨_, rfl, .inr rfl, .inl rfl⟩
  | mdec r =>
    refine ⟨_, exec_mdec s r, .inl ?_, .inr ⟨r, ?_⟩⟩ <;> simp
  | menc rd len =>
    cases hl : lengthTooLong len with
    | true => exact ⟨_, exec_menc_tooLong rd hl s, .inl rfl, .inl rfl⟩
    | false => exact ⟨_, exec_menc_fits rd hl s, .inl rfl, .inl rfl⟩
  | kgen => refine ⟨_, rfl, .inl ?_, .inl ?_⟩ <;> simp
  | sgen => refine ⟨_, rfl, .inl ?_, .inl ?_⟩ <;> simp
  | _ => exact ⟨_, rfl, .inl rfl, .inl rfl⟩

/-- A canonical value fits 32 bits (R36). -/
theorem canonical_toInt_ofInt_word {x : Int} (h : Canonical x) : Canonical (BitVec.ofInt 32 x).toInt := by
  obtain ⟨lower, upper⟩ := h
  rw [BitVec.toInt_ofInt, Int.bmod_eq_of_le_mul_two (by omega) (by omega)]
  exact ⟨lower, upper⟩

/-- The length of a decoded message fits LEN (R38). -/
theorem toNat_ofNat_length_toBytes_le (v : RingVec) : (BitVec.ofNat 6 v.toBytes.length).toNat ≤ 32 := by
  have := length_toBytes v
  rw [BitVec.toNat_ofNat, Nat.mod_eq_of_lt (by omega)]
  exact this

/-- Completing a latched command keeps the invariant (R123). -/
theorem exec_inv (hs : s.Inv) (hr : s.rst = false) (hn : s.need = 0) {i : Instr} (hi : submissionError i = none)
    (h : exec i s = .next t) : t.Inv := by
  have rings := exec_ringsCanonical hs.rings h
  obtain ⟨u, hu, scalarWritten, lenWritten⟩ := exec_scalarOut_decLen i s
  obtain rfl := Host.Outcome.next.inj (hu.symm.trans h)
  have scalarOut : Canonical u.scalarOut.toInt := by
    obtain e | e := scalarWritten <;> rw [e]
    · exact hs.scalarOut
    · exact canonical_toInt_ofInt_word (reduce_canonical _)
  have decLen : u.decLen.toNat ≤ 32 := by
    obtain e | ⟨r, e⟩ := lenWritten <;> rw [e]
    · exact hs.decLen
    · exact toNat_ofNat_length_toBytes_le _
  obtain ⟨_, _, _, _, _, rfl⟩ := exec_eq hi h
  exact { hs with
    rings := rings
    scalarOut := scalarOut
    decLen := decLen
    idle := fun _ => ⟨hn, rfl⟩
    busy := nofun
    inReset := inReset_of_released hr }

/-- Taking a code keeps the sum of the draws held and needed (R170). -/
theorem takeCode_inv (hs : s.Inv) (hr : s.rst = false) (hp : s.phase = .busy) (hn : 0 < s.need) :
    (takeCode s).Inv := by
  obtain ⟨_, h⟩ | ⟨c, cs, _, _, h⟩ | ⟨c, cs, v, _, _, h⟩ := takeCode_cases s <;> rw [h]
  · exact hs
  · exact { hs with inReset := inReset_of_released hr }
  · obtain ⟨hdone, i, latched, draws⟩ := hs.busy hp
    have total : s.need - 1 + (s.drawbuf ++ [v]).length = drawsNeeded i := by
      rw [List.length_append, List.length_singleton]
      omega
    exact { hs with
      idle := fun hi => nomatch hp.symm.trans hi
      busy := fun _ => ⟨hdone, i, latched, total⟩
      inReset := inReset_of_released hr }

/-- The latched word is one that submission accepts, so its completion is the command's (R120, R123). -/
theorem engineTurn_inv (hs : s.Inv) (h : engineTurn s = .next t) : t.Inv := by
  obtain ⟨_, rfl⟩ | ⟨_, _, rfl⟩ | ⟨hr, hp, hn, rfl⟩ | ⟨hr, hp, hn, w, i, hc, hd, hx⟩ | ⟨_, hp, _, w, e, hc, hd, _⟩ :=
    engineTurn_cases h
  · exact applyReset_inv s
  · exact hs
  · exact takeCode_inv hs hr hp hn
  · obtain ⟨_, j, ⟨w', hc', hd', accepted⟩, _⟩ := hs.busy hp
    obtain rfl := Option.some.inj (hc.symm.trans hc')
    obtain rfl := Except.ok.inj (hd.symm.trans hd')
    exact exec_inv hs hr hn accepted hx
  · obtain ⟨_, j, ⟨w', hc', hd', _⟩, _⟩ := hs.busy hp
    obtain rfl := Option.some.inj (hc.symm.trans hc')
    exact nomatch hd.symm.trans hd'

theorem setRst_inv (hs : s.Inv) (level : Bool) : (setRst level s).Inv := by
  obtain ⟨_, _, h⟩ | h := setRst_cases level s <;> rw [h]
  · exact hs
  · exact inv_resetValues ..

theorem step_inv (hs : s.Inv) (h : step s = .next t) : t.Inv := by
  have hs := inv_afterTurn hs
  obtain ⟨tx, rfl⟩ | h | ⟨level, rfl⟩ := step_cases h
  · exact runTransaction_inv hs tx
  · exact engineTurn_inv hs h
  · exact setRst_inv hs level

/-- Settles O53: the reset state is one of those that reset leaves. -/
theorem invariantAtReset : Obligations.InvariantAtReset := inv_resetValues ..

/-- Settles O54: each kind of turn keeps the invariant. -/
theorem stepKeepsInvariant : Obligations.StepKeepsInvariant := fun _ _ => step_inv

end Sys2Proof.Machine

/-! ### The register block: the words and the steps (R31 to R38) -/

namespace Sys2Proof.Machine

/-- A word put together from two fields is the upper one shifted, plus the lower one. -/
theorem toNat_append_add {m n : Nat} (x : BitVec m) (y : BitVec n) :
    (x ++ y).toNat = x.toNat * 2 ^ n + y.toNat := by
  rw [BitVec.toNat_append, ← Nat.shiftLeft_add_eq_or_of_lt y.isLt, Nat.shiftLeft_eq]

theorem toNat_ctrlWord (s : State) :
    s.ctrlWord.toNat = (if s.fulladd then 1 else 0) + (if s.irqen then 2 else 0) := by
  simp only [State.ctrlWord, toNat_append_add, BitVec.toNat_ofBool]
  cases s.fulladd <;> cases s.irqen <;> rfl

/-- The word of STATUS, field by field; ERRCODE stands from bit 8 on (R33). -/
theorem toNat_statusWord (s : State) : s.statusWord.toNat =
    (if s.phase = .busy then 1 else 0) + (if s.done then 2 else 0) + (if s.err then 4 else 0) +
      256 * s.errcode.toBits.toNat := by
  have busy : s.isBusy.toNat = if s.phase = .busy then 1 else 0 := by
    unfold State.isBusy
    cases s.phase <;> rfl
  have done : s.done.toNat * 2 = if s.done then 2 else 0 := by cases s.done <;> rfl
  have err : s.err.toNat * 4 = if s.err then 4 else 0 := by cases s.err <;> rfl
  simp only [State.statusWord, toNat_append_add, BitVec.toNat_ofBool, BitVec.ofNat_eq_ofNat, BitVec.toNat_zero,
    ← busy, ← done, ← err]
  omega

theorem toNat_registerWord_winSel (s : State) : (registerWord s .winSel).toNat = s.winSel.val := by
  rw [registerWord, toNat_append_add]
  simp

theorem toNat_registerWord_decLen (s : State) : (registerWord s .decLen).toNat = s.decLen.toNat := by
  rw [registerWord, toNat_append_add]
  simp

/-- ID, CTRL, STATUS and CMD lie outside the data group, so they are open in every phase (R30, R74). -/
theorem locked_of_lt {off : Offset} (h : off.toNat / 4 < 4) (s : State) : locked (hostReg off) s = false := by
  have outside : (hostReg off).inDataGroup = false := by
    rw [← Bool.not_eq_true, inDataGroup_hostReg]
    omega
  rw [locked, outside, Bool.false_and]

/-- Settles O44: both registers are open; CTRL's word is the sum of its bits. -/
theorem idAndCtrlAccess : Obligations.IdAndCtrlAccess := by
  intro s off ts hr
  refine ⟨fun hk ht => ?_, fun hk ht => ⟨_, ?_, toNat_ctrlWord s⟩, fun v hk ht => ?_⟩
  · rw [step_read_open ht hr (locked_of_lt (by omega) s), hostReg_id hk, registerWord]
  · rw [step_read_open ht hr (locked_of_lt (by omega) s), hostReg_ctrl hk, registerWord]
  · rw [step_write_open ht hr (locked_of_lt (by omega) s), hostReg_ctrl hk, writeRegister, State.writeCtrl]

/-- Settles O45: STATUS is open; its word is the sum of its fields. -/
theorem statusReadAndAcknowledge : Obligations.StatusReadAndAcknowledge := by
  intro s off ts hr hk
  have hreg := hostReg_status hk
  have hopen := locked_of_lt (off := off) (by omega) s
  refine ⟨fun ht => ⟨_, step_read_open ht hr hopen, ?_⟩, fun v ht => ?_⟩
  · rw [hreg, registerWord, toNat_statusWord]
    cases s.errcode <;> rfl
  · rw [step_write_open ht hr hopen, hreg, writeRegister, State.writeStatus]
    cases v.getLsbD 1 <;> cases v.getLsbD 2 <;> simp

/-- Settles O46: idle, the data group is open, and each register's word is its content, zero-extended. -/
theorem dataRegisterAccess : Obligations.DataRegisterAccess := by
  intro s off ts hr hp
  have hopen := locked_idle (s := s) (hostReg off) hp
  refine ⟨fun ht d hd => ?_, fun v ht => ⟨fun hk => ?_, fun hk => ?_⟩⟩
  · have hword : registerWord s (hostReg off) = d := by
      obtain ⟨hk, hd⟩ | ⟨hk, hd⟩ | ⟨hk, hd⟩ | ⟨hk, hd⟩ := hd
      · rw [hostReg_scalarIn hk, hd, registerWord]
      · rw [hostReg_scalarOut hk, hd, registerWord]
      · exact BitVec.eq_of_toNat_eq (by rw [hostReg_winSel hk, toNat_registerWord_winSel, hd])
      · exact BitVec.eq_of_toNat_eq (by rw [hostReg_decLen hk, toNat_registerWord_decLen, hd])
    rw [step_read_open ht hr hopen, hword]
  · rw [step_write_open ht hr hopen, hostReg_scalarIn hk, writeRegister]
  · have hsel : (v.extractLsb' 0 5).toFin = Fin.ofNat 32 v.toNat := Fin.ext (by simp)
    rw [step_write_open ht hr hopen, hostReg_winSel hk, writeRegister, hsel]

/-! ### Reads at reset (R50) -/

@[simp] theorem msgByte_reset (p : Nat) : State.reset.msgByte p = 0 := by
  by_cases hp : p < 32 <;> simp [State.msgByte, State.reset, hp]

/-- At reset every register but ID reads 0. -/
theorem registerWord_reset {r : HostReg} (h : r ≠ .id) : registerWord State.reset r = 0 := by
  cases r with
  | id => exact absurd rfl h
  | msg w => simp [registerWord, State.msgWord]
  | win i => simp [registerWord, State.ring, State.reset]
  | _ => rfl

/-- Settles O49: no register is locked at reset, so a read gives the register's word. -/
theorem resetValues : Obligations.ResetValues := by
  refine ⟨coeff_ring_reset, msgByte_reset, fun off => ?_, rfl, rfl, rfl, rfl, rfl, rfl, rfl⟩
  rw [hostRead_open off rfl (locked_idle _ rfl)]
  by_cases hk : off.toNat / 4 = 0
  · rw [if_pos hk, hostReg_id hk, registerWord]
  · rw [if_neg hk, registerWord_reset (hostReg_ne_id hk)]

end Sys2Proof.Machine

/-! ### The temporaries influence nothing (R45) -/

namespace Sys2Proof.Machine

/-- The two states differ in nothing but the generation of the temporaries. -/
def SameButTemps (s s' : State) : Prop := ∃ gen, s' = { s with tempGen := gen }

/-- A next state of one outcome is matched by one of the other that differs in the temporaries only. -/
def NextSameButTemps (o o' : Host.Outcome State Fault Refusal) : Prop :=
  ∀ t, o = .next t → ∃ t', o' = .next t' ∧ SameButTemps t t'

variable {s s' u u' : State}

theorem NextSameButTemps.of_next (h : SameButTemps u u') : NextSameButTemps (.next u) (.next u') := fun _ ht =>
  ⟨u', rfl, Host.Outcome.next.inj ht ▸ h⟩

theorem NextSameButTemps.fault (r : Fault) (o : Host.Outcome State Fault Refusal) :
    NextSameButTemps (.fault r) o := fun _ h => by cases h

namespace SameButTemps

/-! #### What the two states agree in -/

theorem eq_of_eq_tempGen {α : Type} {f : State → α} (h : SameButTemps s s')
    (hf : ∀ (s : State) (gen : Nat), f { s with tempGen := gen } = f s) : f s' = f s := by
  obtain ⟨gen, rfl⟩ := h
  exact hf s gen

theorem rr (h : SameButTemps s s') : s'.rr = s.rr := h.eq_of_eq_tempGen fun _ _ => rfl

theorem fa (h : SameButTemps s s') : s'.fa = s.fa := h.eq_of_eq_tempGen fun _ _ => rfl

theorem rst (h : SameButTemps s s') : s'.rst = s.rst := h.eq_of_eq_tempGen fun _ _ => rfl

theorem phase (h : SameButTemps s s') : s'.phase = s.phase := h.eq_of_eq_tempGen fun _ _ => rfl

theorem isBusy (h : SameButTemps s s') : s'.isBusy = s.isBusy := h.eq_of_eq_tempGen fun _ _ => rfl

theorem need (h : SameButTemps s s') : s'.need = s.need := h.eq_of_eq_tempGen fun _ _ => rfl

theorem cmd (h : SameButTemps s s') : s'.cmd = s.cmd := h.eq_of_eq_tempGen fun _ _ => rfl

theorem drawbuf (h : SameButTemps s s') : s'.drawbuf = s.drawbuf := h.eq_of_eq_tempGen fun _ _ => rfl

theorem entropy (h : SameButTemps s s') : s'.entropy = s.entropy := h.eq_of_eq_tempGen fun _ _ => rfl

theorem winSel (h : SameButTemps s s') : s'.winSel = s.winSel := h.eq_of_eq_tempGen fun _ _ => rfl

theorem turnOf (h : SameButTemps s s') : turnOf s' = turnOf s := h.eq_of_eq_tempGen fun _ _ => rfl

theorem msgByte (h : SameButTemps s s') : s'.msgByte = s.msgByte := h.eq_of_eq_tempGen fun _ _ => rfl

theorem ring (h : SameButTemps s s') (r : RegNum) : s'.ring r = s.ring r := ring_congr h.rr r

theorem drawRow (h : SameButTemps s s') (n : Nat) : drawRow s' n = drawRow s n := drawRow_congr h.drawbuf n

theorem registerWord (h : SameButTemps s s') (r : HostReg) : registerWord s' r = registerWord s r :=
  h.eq_of_eq_tempGen (f := (Machine.registerWord · r)) fun _ _ => by cases r <;> rfl

/-! #### The updates of a state -/

/-- An update keeps the two states alike if it takes a change of the temporaries to a change of the temporaries. -/
theorem map {f : State → State} (h : SameButTemps s s')
    (hf : ∀ (s : State) (gen : Nat), ∃ gen', f { s with tempGen := gen } = { f s with tempGen := gen' }) :
    SameButTemps (f s) (f s') := by
  obtain ⟨gen, rfl⟩ := h
  exact hf s gen

theorem afterTurn (h : SameButTemps s s') : SameButTemps (afterTurn s) (afterTurn s') := h.map fun _ _ => ⟨_, rfl⟩

theorem applyReset (h : SameButTemps s s') : SameButTemps (applyReset s) (applyReset s') :=
  h.map fun _ gen => ⟨gen + 1, rfl⟩

theorem raiseError (h : SameButTemps s s') (code : ErrCode) :
    SameButTemps (raiseError code s) (raiseError code s') := h.map fun _ gen => ⟨gen, rfl⟩

theorem refuse (h : SameButTemps s s') (code : ErrCode) :
    SameButTemps (refuse code s) (refuse code s') := h.map fun _ gen => ⟨gen, rfl⟩

theorem refuseLatched (h : SameButTemps s s') (code : ErrCode) :
    SameButTemps (refuseLatched code s) (refuseLatched code s') := h.map fun _ gen => ⟨gen, rfl⟩

theorem accept (h : SameButTemps s s') (v : Word) (draws : Nat) :
    SameButTemps (accept v draws s) (accept v draws s') := h.map fun _ gen => ⟨gen, rfl⟩

theorem complete (h : SameButTemps s s') : SameButTemps (complete s) (complete s') := h.map fun _ gen => ⟨gen, rfl⟩

theorem disturbTemporaries (h : SameButTemps s s') :
    SameButTemps (disturbTemporaries s) (disturbTemporaries s') := h.map fun _ gen => ⟨gen + 1, rfl⟩

theorem setRing (h : SameButTemps s s') (r : RegNum) {v v' : RingVec} (hv : v' = v) :
    SameButTemps (s.setRing r v) (s'.setRing r v') := by
  subst hv
  exact h.map (f := (State.setRing · r v')) fun _ gen => ⟨gen, rfl⟩

theorem setMessage (h : SameButTemps s s') {out out' : List Byte} (ho : out' = out) :
    SameButTemps (s.setMessage out) (s'.setMessage out') := by
  subst ho
  exact h.map (f := (State.setMessage · out')) fun s gen => ⟨gen, by rw [setMessage_eq, setMessage_eq]⟩

theorem fillRows (hu : SameButTemps u u') : ∀ (l : List RegNum) (n : Nat) {s s' : State}, SameButTemps s s' →
    SameButTemps (fillRows u l n s) (fillRows u' l n s')
  | [], _, _, _, h => h
  | r :: rs, n, _, _, h => fillRows hu rs (n + 1) (h.setRing r (hu.drawRow n))

theorem readData (h : SameButTemps s s') (d : Option Word) :
    SameButTemps { s with readData := d } { s' with readData := d } :=
  h.map (f := fun s => { s with readData := d }) fun _ gen => ⟨gen, rfl⟩

theorem setCoeff (h : SameButTemps s s') (r : RegNum) (k : Fin 256) (v : Coeff) :
    SameButTemps (s.setCoeff r k v) (s'.setCoeff r k v) := by
  rw [State.setCoeff, State.setCoeff, h.ring]
  exact h.setRing r rfl

theorem acceptCode (h : SameButTemps s s') (c : Code) : SameButTemps (acceptCode c s) (acceptCode c s') := by
  rw [Machine.acceptCode, Machine.acceptCode]
  cases drawOfCode c with
  | none => exact h
  | some v =>
    exact h.map (f := fun s => { s with drawbuf := s.drawbuf ++ [v], need := s.need - 1 }) fun _ gen => ⟨gen, rfl⟩

theorem takeCode (h : SameButTemps s s') : SameButTemps (takeCode s) (takeCode s') := by
  rw [Machine.takeCode, Machine.takeCode, h.entropy]
  cases s.entropy with
  | nil => exact h
  | cons c cs =>
    exact (h.map (f := fun s => { s with entropy := cs }) fun _ gen => ⟨gen, rfl⟩).acceptCode c

theorem setRst (h : SameButTemps s s') (level : Bool) : SameButTemps (setRst level s) (setRst level s') := by
  rw [Machine.setRst, Machine.setRst, h.rst]
  split
  · exact h.applyReset.map (f := fun s => { s with rst := level }) fun _ gen => ⟨gen, rfl⟩
  · exact h

/-! #### Transactions -/

theorem submit (h : SameButTemps s s') (v : Word) : SameButTemps (submit v s) (submit v s') := by
  rw [Machine.submit, Machine.submit, h.isBusy]
  split
  · exact h.raiseError .busy
  · split
    · exact h.refuse .illegal
    · split
      · exact h.refuse _
      · exact h.accept v _

theorem writeRegister (h : SameButTemps s s') (r : HostReg) (v : Word) :
    SameButTemps (writeRegister r v s) (writeRegister r v s') := by
  cases r with
  | cmd => exact h.submit v
  | win i =>
    rw [Machine.writeRegister, Machine.writeRegister, h.winSel]
    split
    · exact h.setCoeff _ i _
    · exact h.raiseError .range
  | _ => exact h.map fun _ gen => ⟨gen, rfl⟩

theorem locked (h : SameButTemps s s') (r : HostReg) : locked r s' = locked r s := by
  rw [Machine.locked, Machine.locked, h.isBusy]

theorem hostRead (h : SameButTemps s s') (off : Offset) : SameButTemps (hostRead off s) (hostRead off s') := by
  obtain ⟨hr, e⟩ | ⟨hr, hl, e⟩ | ⟨hr, hl, e⟩ := hostRead_cases off s
  · rw [e, hostRead_rst off (h.rst.trans hr)]
    exact h.applyReset.readData _
  · rw [e, hostRead_locked off (h.rst.trans hr) ((h.locked _).trans hl)]
    exact (h.raiseError .busy).readData _
  · rw [e, hostRead_open off (h.rst.trans hr) ((h.locked _).trans hl), h.registerWord]
    exact h.readData _

theorem hostWrite (h : SameButTemps s s') (off : Offset) (v : Word) :
    SameButTemps (hostWrite off v s) (hostWrite off v s') := by
  obtain ⟨hr, e⟩ | ⟨hr, hl, e⟩ | ⟨hr, hl, e⟩ := hostWrite_cases off v s
  · rw [e, hostWrite_rst off v (h.rst.trans hr)]
    exact h.applyReset
  · rw [e, hostWrite_locked off v (h.rst.trans hr) ((h.locked _).trans hl)]
    exact h.raiseError .busy
  · rw [e, hostWrite_open off v (h.rst.trans hr) ((h.locked _).trans hl)]
    exact h.writeRegister _ v

theorem runTransaction (h : SameButTemps s s') (tx : Transaction) :
    SameButTemps (runTransaction tx s) (runTransaction tx s') := by
  cases tx with
  | read off => exact h.hostRead off
  | write off v => exact h.hostWrite off v

/-- The receiver's key is derived from the rings alone (R173). -/
theorem setPkRecv (h : SameButTemps s s') {fa fa' : Bool} (hfa : fa' = fa) :
    SameButTemps ((s.setRing Role.p0 (pkRecv s fa).1).setRing Role.p1 (pkRecv s fa).2)
      ((s'.setRing Role.p0 (pkRecv s' fa').1).setRing Role.p1 (pkRecv s' fa').2) := by
  rw [hfa, pkRecv_congr h.rr]
  exact (h.setRing _ rfl).setRing _ rfl

/-- The sender's key likewise (R174). -/
theorem setPkSend (h : SameButTemps s s') {fa fa' : Bool} (hfa : fa' = fa) :
    SameButTemps ((s.setRing Role.u0 (pkSend s fa).1).setRing Role.u1 (pkSend s fa).2)
      ((s'.setRing Role.u0 (pkSend s' fa').1).setRing Role.u1 (pkSend s' fa').2) := by
  rw [hfa, pkSend_congr h.rr]
  exact (h.setRing _ rfl).setRing _ rfl

/-! #### The engine's turn -/

theorem exec (h : SameButTemps s s') (i : Instr) : NextSameButTemps (exec i s) (exec i s') := by
  cases i with
  | nop => exact .of_next h.complete
  | sred =>
    exact .of_next (h.map (f := fun s => { s with scalarOut := BitVec.ofInt 32 (reduce s.scalarValue) })
      fun _ gen => ⟨gen, rfl⟩).complete
  | radd rd rs1 rs2 => exact .of_next (h.setRing rd (by rw [h.ring, h.ring, h.fa])).complete
  | rsub rd rs1 rs2 => exact .of_next (h.setRing rd (by rw [h.ring, h.ring, h.fa])).complete
  | rmul rd rs1 rs2 => exact .of_next (h.setRing rd (by rw [h.ring, h.ring])).disturbTemporaries.complete
  | rrot rd rs1 imm => exact .of_next (h.setRing rd (by rw [h.ring])).complete
  | rgen rd => exact .of_next (h.setRing rd (h.drawRow 0)).complete
  | mthr rd rs1 => exact .of_next (h.setRing rd (by rw [h.ring])).complete
  | mdec r =>
    rw [exec_mdec, exec_mdec]
    exact .of_next (h.setMessage (by rw [h.ring])).complete
  | menc rd len =>
    cases hl : lengthTooLong len with
    | true =>
      rw [exec_menc_tooLong rd hl, exec_menc_tooLong rd hl]
      exact .of_next (h.refuseLatched .tooLong)
    | false =>
      rw [exec_menc_fits rd hl, exec_menc_fits rd hl]
      exact .of_next (h.setRing rd (by rw [h.msgByte])).complete
  | kgen => exact .of_next ((h.fillRows kgenRows 0 h).setPkRecv h.fa).disturbTemporaries.complete
  | pkder => exact .of_next (h.setPkRecv h.fa).disturbTemporaries.complete
  | sgen => exact .of_next ((h.fillRows sgenRows 0 h).setPkSend h.fa).disturbTemporaries.complete
  | spkder => exact .of_next (h.setPkSend h.fa).disturbTemporaries.complete
  | enc =>
    exact .of_next (h.setRing _ (by rw [h.ring, h.fa, noiseTerm_congr h.rr])).disturbTemporaries.complete
  | dec => exact .of_next (h.setRing _ (by rw [h.fa, noisy_congr h.rr])).disturbTemporaries.complete

theorem completion (h : SameButTemps s s') : NextSameButTemps (completion s) (completion s') := by
  rw [Machine.completion, Machine.completion, h.cmd]
  split
  · exact .fault _ _
  · split
    · exact h.exec _
    · exact .of_next (h.refuseLatched .illegal)

theorem engineTurn (h : SameButTemps s s') : NextSameButTemps (engineTurn s) (engineTurn s') := by
  rw [Machine.engineTurn, Machine.engineTurn, h.rst, h.phase, h.need]
  split
  · exact .of_next h.applyReset
  · split
    · exact .of_next h
    · split
      · exact .of_next h.takeCode
      · exact h.completion

theorem step (h : SameButTemps s s') : NextSameButTemps (step s) (step s') := by
  rw [Machine.step, Machine.step, h.turnOf]
  cases Machine.turnOf s with
  | host tx => exact .of_next (h.afterTurn.runTransaction tx)
  | engine => exact h.afterTurn.engineTurn
  | rst level => exact .of_next (h.afterTurn.setRst level)

end SameButTemps

/-- Settles O57: a step takes states that differ in the temporaries only to states that do. -/
theorem temporariesAreUnobservable : Obligations.TemporariesAreUnobservable := by
  intro s t gen h
  have alike : SameButTemps s { s with tempGen := gen } := ⟨gen, rfl⟩
  obtain ⟨t', ht', gen', rfl⟩ := alike.step t h
  exact ⟨_, gen', ht', rfl⟩

end Sys2Proof.Machine

/-! ### Runs go on (R62, R220) -/

namespace Sys2Proof.Machine

variable {s : State}

/-- The engine can stop only where no command is latched, and a busy engine with the invariant has one (R121). -/
theorem engineTurn_next (hs : s.Inv) : ∃ t, engineTurn s = .next t := by
  cases hr : s.rst with
  | true => exact ⟨_, engineTurn_rst hr⟩
  | false =>
    cases hp : s.phase with
  | idle => exact ⟨_, engineTurn_idle hr hp⟩
  | busy =>
      obtain ⟨_, i, ⟨w, latched, decodes, _⟩, _⟩ := hs.busy hp
      obtain hn | hn := Nat.eq_zero_or_pos s.need
      · rw [engineTurn_complete hr hp hn latched decodes]
        exact exec_next i s
      · exact ⟨_, engineTurn_draw hr hp hn⟩

/-- Transactions and changes of `rst` always answer a next state; the engine's turn does with the invariant. -/
theorem step_next (hs : s.Inv) : ∃ t, step s = .next t := by
  rw [step]
  cases turnOf s with
  | host tx => exact ⟨_, rfl⟩
  | engine => exact engineTurn_next (inv_afterTurn hs)
  | rst level => exact ⟨_, rfl⟩

theorem run_next_inv (n : Nat) (hs : s.Inv) : ∃ t, core.run n s = .next t ∧ t.Inv := by
  induction n generalizing s with
  | zero => exact ⟨s, run_zero s, hs⟩
  | succ n ih =>
    obtain ⟨u, hu⟩ := step_next hs
    rw [run_succ n hu]
    exact ih (step_inv hs hu)

/-- Settles O56: each step goes on and keeps the invariant, so by induction every run does. -/
theorem runsNeverStop : Obligations.RunsNeverStop := fun _ => run_next_inv

end Sys2Proof.Machine

/-! ### The register block: window, message buffer, lock and reserved offsets (R64, R65, R71 to R74) -/

namespace Sys2Proof.Machine

variable {s : State} {off : Offset} {ts : List Turn}

/-- A read of a register that is not locked, named by its constructor. -/
theorem step_read_hostReg {r : HostReg} (hreg : hostReg off = r) (ht : s.turns = .host (.read off) :: ts)
    (hr : s.rst = false) (hl : locked r s = false) :
    step s = .next { s with turns := ts, readData := some (registerWord s r) } := by
  subst hreg
  exact step_read_open ht hr hl

/-- A write of a register that is not locked, named by its constructor. -/
theorem step_write_hostReg {r : HostReg} {v : Word} (hreg : hostReg off = r) (ht : s.turns = .host (.write off v) :: ts)
    (hr : s.rst = false) (hl : locked r s = false) :
    step s = .next (writeRegister r v { s with turns := ts }) := by
  subst hreg
  exact step_write_open ht hr hl

/-! #### The coefficient window -/

/-- A window word is its coefficient, sign-extended (R71). -/
theorem registerWord_win (s : State) (i : Fin 256) :
    registerWord s (.win i) = BitVec.ofInt 32 ((s.ring s.winSel).coeff i) := by
  rw [RingVec.coeff_of_lt _ i.isLt]
  rfl

/-- Setting a coefficient changes that one alone, in all the rings (R11). -/
theorem coeff_ring_setCoeff (s : State) (r q : RegNum) (i : Fin 256) (v : Coeff) {k : Nat} (hk : k < 256) :
    ((s.setCoeff r i v).ring q).coeff k = if q = r ∧ k = i then v.toInt else (s.ring q).coeff k := by
  rw [State.setCoeff, ring_setRing]
  by_cases hq : q = r
  · subst hq
    simp only [true_and, if_true, RingVec.coeff_of_lt _ hk, Vector.getElem_set, eq_comm (a := k), apply_ite BitVec.toInt]
  · rw [if_neg hq, if_neg fun h => hq h.1]

theorem writeRegister_win_canonical (s : State) (i : Fin 256) {v : Word} (hv : Canonical v.toInt) :
    writeRegister (.win i) v s = s.setCoeff s.winSel i (BitVec.ofInt 12 v.toInt) := by
  rw [writeRegister, if_pos ((inWindowRange_iff v).mpr hv)]

theorem writeRegister_win_refused (s : State) (i : Fin 256) {v : Word} (hv : ¬Canonical v.toInt) :
    writeRegister (.win i) v s = raiseError .range s := by
  rw [writeRegister, if_neg fun h => hv ((inWindowRange_iff v).mp h)]

/-- Settles O39: idle, the window is open, and its word is the coefficient's. -/
theorem windowReadsCoefficient : Obligations.WindowReadsCoefficient := by
  intro s off ts i hi hk ht hr hp
  rw [step_read_hostReg (hostReg_win hi hk) ht hr (locked_idle _ hp), registerWord_win]

/-- Settles O40: a value in range sets one coefficient, and fits its 12 bits; any other raises E_RANGE. -/
theorem windowWritesCanonicalOnly : Obligations.WindowWritesCanonicalOnly := by
  intro s off v ts i hi hk ht hr hp
  have hstep := step_write_hostReg (hostReg_win hi hk) ht hr (locked_idle _ hp)
  refine ⟨fun hv => ⟨(s.setCoeff s.winSel ⟨i, hi⟩ (BitVec.ofInt 12 v.toInt)).rr, ?_, fun r k hlt => ?_⟩, fun hv => ?_⟩
  · rw [hstep, writeRegister_win_canonical _ _ hv]
    rfl
  · have written := coeff_ring_setCoeff s s.winSel r ⟨i, hi⟩ (BitVec.ofInt 12 v.toInt) hlt
    rwa [toInt_ofInt_of_canonical hv] at written
  · rw [hstep, writeRegister_win_refused _ _ hv]
    rfl

/-! #### The message buffer -/

/-- Byte `b` of a message word is message byte `4w + b` (R39, R73). -/
theorem extractLsb'_msgWord (s : State) (w : Fin 8) {b : Nat} (hb : b < 4) :
    (s.msgWord w).extractLsb' (8 * b) 8 = s.msgByte (4 * w + b) := by
  rw [State.msgWord]
  match b, hb with
  | 0, _ => rw [BitVec.extractLsb'_append_eq_right, Nat.add_zero]
  | 1, _ => rw [BitVec.extractLsb'_append_eq_of_le (by decide), BitVec.extractLsb'_append_eq_right]
  | 2, _ => rw [BitVec.extractLsb'_append_eq_of_le (by decide), BitVec.extractLsb'_append_eq_of_le (by decide),
      BitVec.extractLsb'_append_eq_right]
  | 3, _ => rw [BitVec.extractLsb'_append_eq_of_le (by decide), BitVec.extractLsb'_append_eq_of_le (by decide),
      BitVec.extractLsb'_append_eq_left]

theorem msgByte_setMsgWord (s : State) (w : Fin 8) (v : Word) {p : Nat} (hp : p < 32) :
    (s.setMsgWord w v).msgByte p = if p / 4 = w then v.extractLsb' (8 * (p % 4)) 8 else s.msgByte p := by
  rw [State.msgByte, dif_pos hp]
  exact getElem_messageOf _ hp

/-- Settles O41: idle, the message buffer is open; its word is four bytes of MSG, and a write sets those four. -/
theorem messageBufferAccess : Obligations.MessageBufferAccess := by
  intro s off ts w hw hk hr hp
  have hreg := hostReg_msg hw hk
  have hopen := locked_idle (s := s) (.msg ⟨w, hw⟩) hp
  refine ⟨fun ht => ⟨_, step_read_hostReg hreg ht hr hopen, fun b => extractLsb'_msgWord s ⟨w, hw⟩⟩, fun v ht => ?_⟩
  exact ⟨_, step_write_hostReg hreg ht hr hopen, rfl, fun p => msgByte_setMsgWord { s with turns := ts } ⟨w, hw⟩ v⟩

/-! #### The busy lock, reserved and read-only offsets -/

/-- Settles O42: the offsets are those of the data group, which is locked while busy. -/
theorem busyLocksDataGroup : Obligations.BusyLocksDataGroup := by
  intro s off ts hk hr hp
  have hlocked : locked (hostReg off) s = true := by
    rw [locked_busy _ hp]
    exact (inDataGroup_hostReg off).mpr hk
  exact ⟨fun ht => step_read_locked ht hr hlocked, fun v ht => step_write_locked ht hr hlocked⟩

/-- Settles O43: none of these registers is locked; the ones read have the word 0, the ones written ignore a write. -/
theorem reservedAndReadOnlyOffsets : Obligations.ReservedAndReadOnlyOffsets := by
  intro s off ts hr k reserved
  have hreserved : reserved → hostReg off = .reserved := fun h => hostReg_reserved (by omega)
  refine ⟨fun ht hk => ?_, fun v ht hk => ?_⟩
  · obtain hk | hk := hk
    · exact step_read_hostReg (hreserved hk) ht hr rfl
    · exact step_read_hostReg (hostReg_cmd hk) ht hr rfl
  · obtain hk | hk | ⟨hp, hk | hk⟩ := hk
    · exact step_write_hostReg (hreserved hk) ht hr rfl
    · exact step_write_hostReg (hostReg_id hk) ht hr rfl
    · exact step_write_hostReg (hostReg_scalarOut hk) ht hr (locked_idle _ hp)
    · exact step_write_hostReg (hostReg_decLen hk) ht hr (locked_idle _ hp)

/-- Settles O38: a transaction is one step, and it sees its offset through the register addressed only. -/
theorem transactionsCompleteAndIgnoreLowBits : Obligations.TransactionsCompleteAndIgnoreLowBits := by
  refine ⟨fun s tx ts ht => ⟨_, step_host ht⟩, fun off off' h s => ⟨?_, fun v => ?_⟩⟩
  · rw [hostRead, hostRead, hostReg_congr h]
  · rw [hostWrite, hostWrite, hostReg_congr h]

end Sys2Proof.Machine

/-! ### Decoding and encoding (R91 to R97) -/

namespace Sys2Proof.Machine

variable {w : Word} {r : Row} {i : Instr}

/-! #### Decode of encode -/

/-- A command's word is selected by the command's row (R95). -/
theorem selects_encode (i : Instr) : (rows.get (Laws.rowOf i)).selects (encode i) = true := by
  cases i with
  | nop => exact Laws.RowSelects.nop
  | radd rd rs1 rs2 => exact Laws.RowSelects.radd rd rs1 rs2
  | rsub rd rs1 rs2 => exact Laws.RowSelects.rsub rd rs1 rs2
  | rmul rd rs1 rs2 => exact Laws.RowSelects.rmul rd rs1 rs2
  | rrot rd rs1 imm => exact Laws.RowSelects.rrot rd rs1 imm
  | rgen rd => exact Laws.RowSelects.rgen rd
  | sred => exact Laws.RowSelects.sred
  | menc rd len => exact Laws.RowSelects.menc rd len
  | mthr rd rs1 => exact Laws.RowSelects.mthr rd rs1
  | mdec rs1 => exact Laws.RowSelects.mdec rs1
  | kgen => exact Laws.RowSelects.kgen
  | pkder => exact Laws.RowSelects.pkder
  | sgen => exact Laws.RowSelects.sgen
  | spkder => exact Laws.RowSelects.spkder
  | enc => exact Laws.RowSelects.enc
  | dec => exact Laws.RowSelects.dec

/-- The row reads every operand back from the field it was put in (R93, R94). -/
theorem build_encode (h : i.wellFormed = true) : (rows.get (Laws.rowOf i)).build (encode i) = i := by
  cases i with
  | radd rd rs1 rs2 | rsub rd rs1 rs2 | rmul rd rs1 rs2 =>
    simp [Laws.rowOf, rows, encode, fieldRd_rFormat, fieldRs1_rFormat, fieldRs2_rFormat]
  | rrot rd rs1 imm =>
    have himm : imm < 65536 := of_decide_eq_true h
    simp [Laws.rowOf, rows, encode, fieldRd_iFormat, fieldRs1_iFormat, fieldImm_iFormat, himm]
  | menc rd len =>
    have hlen : len < 65536 := of_decide_eq_true h
    simp [Laws.rowOf, rows, encode, fieldRd_iFormat, fieldImm_iFormat, hlen]
  | rgen rd => simp [Laws.rowOf, rows, encode, fieldRd_rFormat]
  | mthr rd rs1 => simp [Laws.rowOf, rows, encode, fieldRd_rFormat, fieldRs1_rFormat]
  | mdec rs1 => simp [Laws.rowOf, rows, encode, fieldRs1_rFormat]
  | nop | sred | kgen | pkder | sgen | spkder | enc | dec => rfl

/-- Settles O2: a command's word is selected by the command's row, which no other row overlaps and which reads the
operands back. -/
theorem decodeOfEncode : Obligations.DecodeOfEncode := fun i h =>
  (decode_of_selects (List.get_mem rows (Laws.rowOf i)) (selects_encode i)).trans (congrArg Except.ok (build_encode h))

/-- A printed word decodes to a command if it is the command's encoding. -/
theorem decode_of_encode_eq (h : i.wellFormed = true) (hw : encode i = w) : decode w = .ok i :=
  hw ▸ decodeOfEncode i h

/-- Settles O1: each word is the encoding of its command. -/
theorem specWordsDecode : Obligations.SpecWordsDecode := by
  refine ⟨?_, ?_, ?_, ?_, ?_, ?_, ?_, ?_, ?_, ?_, ?_, ?_, ?_, ?_, ?_, ?_⟩
  all_goals exact decode_of_encode_eq rfl rfl

end Sys2Proof.Machine

/-! ### Encoding of decode, and the illegal words (R91 to R97) -/

namespace Sys2Proof.Machine

variable {w : Word} {r : Row} {i : Instr}

/-! #### The fields of a word as numbers -/

theorem toNat_extractLsb'_div (w : Word) (start len : Nat) :
    (w.extractLsb' start len).toNat = w.toNat / 2 ^ start % 2 ^ len := by
  rw [BitVec.extractLsb'_toNat, Nat.shiftRight_eq_div_pow]

theorem val_fieldRd (w : Word) : (fieldRd w).val = w.toNat / 2 ^ 21 % 2 ^ 5 := toNat_extractLsb'_div w 21 5

theorem val_fieldRs1 (w : Word) : (fieldRs1 w).val = w.toNat / 2 ^ 16 % 2 ^ 5 := toNat_extractLsb'_div w 16 5

theorem val_fieldRs2 (w : Word) : (fieldRs2 w).val = w.toNat / 2 ^ 11 % 2 ^ 5 := toNat_extractLsb'_div w 11 5

theorem fieldImm_eq (w : Word) : fieldImm w = w.toNat % 2 ^ 16 := by
  rw [fieldImm, toNat_extractLsb'_div, Nat.pow_zero, Nat.div_one]

theorem toNat_fieldOpc (w : Word) : (fieldOpc w).toNat = w.toNat / 2 ^ 26 := by
  have := w.isLt
  rw [fieldOpc, toNat_extractLsb'_div]
  omega

theorem toNat_rFormat (opc : BitVec 6) (rd rs1 rs2 : RegNum) : (rFormat opc rd rs1 rs2).toNat =
    opc.toNat * 2 ^ 26 + rd.val * 2 ^ 21 + rs1.val * 2 ^ 16 + rs2.val * 2 ^ 11 := by
  simp only [rFormat, toNat_append_add, BitVec.toNat_ofFin, BitVec.ofNat_eq_ofNat, BitVec.toNat_zero]
  omega

theorem toNat_iFormat (opc : BitVec 6) (rd rs1 : RegNum) (imm : Nat) : (iFormat opc rd rs1 imm).toNat =
    opc.toNat * 2 ^ 26 + rd.val * 2 ^ 21 + rs1.val * 2 ^ 16 + imm % 2 ^ 16 := by
  simp only [iFormat, toNat_append_add, BitVec.toNat_ofFin, BitVec.toNat_ofNat]
  omega

/-! #### What a row fixes of the words it selects -/

/-- OPC has no row in the opcode map (R97 (a)). -/
def unassignedOpc (opc : Nat) : Prop := (0x0A ≤ opc ∧ opc ≤ 0x0F) ∨ (0x16 ≤ opc ∧ opc ≤ 0x3F)

/-- The reserved bits of the word `n` with this OPC, added up: 0 iff every reserved field is 0 (R93, R95). -/
def reservedOf (opc n : Nat) : Nat :=
  if opc = 1 ∨ opc = 2 ∨ opc = 3 then n % 2 ^ 11
  else if opc = 4 then 0
  else if opc = 5 then n % 2 ^ 21
  else if opc = 7 then n / 2 ^ 16 % 2 ^ 5
  else if opc = 8 then n % 2 ^ 16
  else if opc = 9 then n / 2 ^ 21 % 2 ^ 5 + n % 2 ^ 16
  else n % 2 ^ 26

/-- Where the reserved fields of the words with this OPC stand: the lowest bit of each, and its length. -/
def reservedRanges (opc : Nat) : List (Nat × Nat) :=
  if opc = 1 ∨ opc = 2 ∨ opc = 3 then [(0, 11)]
  else if opc = 4 then []
  else if opc = 5 then [(0, 21)]
  else if opc = 7 then [(16, 5)]
  else if opc = 8 then [(0, 16)]
  else if opc = 9 then [(21, 5), (0, 16)]
  else [(0, 26)]

theorem reservedOf_eq_zero_iff {opc n : Nat} :
    reservedOf opc n = 0 ↔ ∀ p ∈ reservedRanges opc, n / 2 ^ p.1 % 2 ^ p.2 = 0 := by
  unfold reservedOf reservedRanges
  split_ifs <;> simp

/-- The row's mask covers every bit from `start` on, `len` of them. -/
abbrev Covers (r : Row) (start len : Nat) : Prop := r.mask.extractLsb' start len = BitVec.allOnes len

/-- Where the mask covers a field, a selected word has the pattern's field (R95). -/
theorem field_of_selects (hs : r.selects w = true) {start len : Nat} (hc : Covers r start len) :
    w.toNat / 2 ^ start % 2 ^ len = r.pattern.toNat / 2 ^ start % 2 ^ len := by
  rw [← toNat_extractLsb'_div, ← toNat_extractLsb'_div, ← beq_iff_eq.mp hs, BitVec.extractLsb'_and, hc,
    BitVec.and_allOnes]

/-- Every row fixes OPC. -/
theorem opc_of_selects (hr : r ∈ rows) (hs : r.selects w = true) : w.toNat / 2 ^ 26 = r.pattern.toNat / 2 ^ 26 := by
  have covered : ∀ r ∈ rows, Covers r 26 6 := by decide
  have fixed := field_of_selects hs (covered r hr)
  have := w.isLt
  have := r.pattern.isLt
  omega

/-- Every row covers its reserved fields, where its pattern is 0 (R93, R97 (b)). -/
theorem reserved_of_selects (hr : r ∈ rows) (hs : r.selects w = true) :
    reservedOf (r.pattern.toNat / 2 ^ 26) w.toNat = 0 := by
  have covered : ∀ r ∈ rows, ∀ p ∈ reservedRanges (r.pattern.toNat / 2 ^ 26),
      Covers r p.1 p.2 ∧ r.pattern.toNat / 2 ^ p.1 % 2 ^ p.2 = 0 := by decide
  refine reservedOf_eq_zero_iff.mpr fun p hp => ?_
  obtain ⟨hc, zero⟩ := covered r hr p hp
  exact (field_of_selects hs hc).trans zero

/-! #### Encode of decode -/

theorem wellFormed_build (hr : r ∈ rows) (w : Word) : (r.build w).wellFormed = true := by
  have fits : immediateFits (fieldImm w) = true := decide_eq_true (BitVec.isLt _)
  revert r
  simp [rows, Instr.wellFormed, fits]

/-- A word with a row's OPC and its reserved fields 0 is the encoding of the command that the row builds from it: as
a number, it is the sum of OPC and the fields that the row reads. -/
theorem encode_build (hr : r ∈ rows) (hopc : w.toNat / 2 ^ 26 = r.pattern.toNat / 2 ^ 26)
    (hres : reservedOf (w.toNat / 2 ^ 26) w.toNat = 0) : encode (r.build w) = w := by
  apply BitVec.eq_of_toNat_eq
  rw [hopc] at hres
  simp only [rows, List.mem_cons, List.not_mem_nil, or_false] at hr
  rcases hr with rfl | rfl | rfl | rfl | rfl | rfl | rfl | rfl | rfl | rfl | rfl | rfl | rfl | rfl | rfl | rfl
  all_goals
    simp [reservedOf] at hopc hres
    simp [encode, toNat_rFormat, toNat_iFormat, val_fieldRd, val_fieldRs1, val_fieldRs2, fieldImm_eq]
    omega

/-- Settles O3: the row that selects the word fixes OPC and makes the reserved fields 0, so nothing of it is dropped. -/
theorem encodeOfDecode : Obligations.EncodeOfDecode := by
  intro w i h
  obtain ⟨r, hr, hs, rfl⟩ := selects_of_decode h
  have hopc := opc_of_selects hr hs
  exact ⟨wellFormed_build hr w, encode_build hr hopc (hopc ▸ reserved_of_selects hr hs)⟩

/-! #### The illegal words -/

/-- The map has a row for exactly the assigned OPC values (R95, R97 (a)). -/
theorem opcodeMapped_iff (opc : BitVec 6) : opcodeMapped opc = true ↔ ¬unassignedOpc opc.toNat := by
  unfold unassignedOpc
  revert opc
  decide

/-- A word decodes iff its OPC has a row and its reserved fields are 0 (R96, R97). -/
theorem decodes_iff : (∃ i, decode w = .ok i) ↔
    ¬unassignedOpc (w.toNat / 2 ^ 26) ∧ reservedOf (w.toNat / 2 ^ 26) w.toNat = 0 := by
  rw [← toNat_fieldOpc, ← opcodeMapped_iff, opcodeMapped, List.any_eq_true]
  constructor
  · rintro ⟨i, h⟩
    obtain ⟨r, hr, hs, -⟩ := selects_of_decode h
    have hopc := opc_of_selects hr hs
    refine ⟨⟨r, hr, beq_iff_eq.mpr (BitVec.eq_of_toNat_eq ?_)⟩, ?_⟩
    · rw [toNat_fieldOpc, toNat_fieldOpc, hopc]
    · rw [toNat_fieldOpc, hopc]
      exact reserved_of_selects hr hs
  · rintro ⟨⟨r, hr, hmap⟩, hres⟩
    rw [toNat_fieldOpc] at hres
    have hopc : w.toNat / 2 ^ 26 = r.pattern.toNat / 2 ^ 26 := by
      rw [← toNat_fieldOpc, ← toNat_fieldOpc, beq_iff_eq.mp hmap]
    exact ⟨_, decode_of_encode_eq (wellFormed_build hr w) (encode_build hr hopc hres)⟩

/-- A word that does not decode is refused for its OPC or, if that has a row, for a reserved field (R97). -/
theorem decode_error_iff {e : Illegal} : decode w = .error e ↔
    (¬∃ i, decode w = .ok i) ∧ e = if opcodeMapped (fieldOpc w) then .reservedField else .opcode := by
  rw [decode]
  cases rows.find? fun r => r.selects w with
  | some r => simp
  | none =>
    simp only [Except.error.injEq, reduceCtorEq, exists_false, not_false_eq_true, true_and]
    exact eq_comm

/-- Submitting an illegal word to the idle engine refuses it with E_ILLEGAL (R120). -/
theorem submit_illegal {s : State} (hp : s.phase = .idle) (h : ¬∃ i, decode w = .ok i) :
    submit w s = refuse .illegal s := by
  obtain ⟨busy, -⟩ | ⟨-, -, e⟩ | ⟨-, i, -, hi, -⟩ | ⟨-, i, hi, -⟩ := submit_cases w s
  · rw [hp] at busy
    cases busy
  · exact e
  · exact absurd ⟨i, hi⟩ h
  · exact absurd ⟨i, hi⟩ h

theorem decode_opcode_iff : decode w = .error .opcode ↔ unassignedOpc (w.toNat / 2 ^ 26) := by
  rw [decode_error_iff, decodes_iff, ← toNat_fieldOpc]
  have mapped := opcodeMapped_iff (fieldOpc w)
  by_cases h : unassignedOpc (fieldOpc w).toNat <;> simp [mapped, h]

theorem decode_reservedField_iff : decode w = .error .reservedField ↔
    ¬unassignedOpc (w.toNat / 2 ^ 26) ∧ reservedOf (w.toNat / 2 ^ 26) w.toNat ≠ 0 := by
  rw [decode_error_iff, decodes_iff, ← toNat_fieldOpc]
  have mapped := opcodeMapped_iff (fieldOpc w)
  by_cases h : unassignedOpc (fieldOpc w).toNat <;> simp [mapped, h]

/-- Settles O4: a word is illegal iff its OPC has no row or a reserved field is not 0, and submission refuses it. -/
theorem illegalWordsRaiseIllegal : Obligations.IllegalWordsRaiseIllegal := by
  intro w opc reserved unassigned
  refine ⟨decode_opcode_iff, decode_reservedField_iff, fun s off ts ht hk hr hp illegal => ?_⟩
  have refused : ¬∃ i, decode w = .ok i := by
    rw [decodes_iff, not_and_or, not_not]
    exact illegal
  rw [step_write_hostReg (hostReg_cmd hk) ht hr rfl, writeRegister,
    submit_illegal (s := { s with turns := ts }) hp refused]
  rfl

end Sys2Proof.Machine

/-! ### The assembler on canonical text (R100, R101, R103) -/

namespace Sys2Proof.Machine

/-! #### The characters of canonical text -/

/-- What mnemonics, register names and decimal numbers are made of. -/
def isWordChar (c : Char) : Bool := c.isLower || c.isDigit

/-- A mnemonic or an operand of canonical text. -/
structure IsWord (t : List Char) : Prop where
  ne_nil : t ≠ []
  chars  : ∀ c ∈ t, isWordChar c = true

theorem ne_of_isWordChar {c d : Char} (hc : isWordChar c = true) (hd : isWordChar d = false) : c ≠ d := by
  rintro rfl
  exact Bool.false_ne_true (hd.symm.trans hc)

theorem isBlank_of_isWordChar {c : Char} (hc : isWordChar c = true) : isBlank c = false := by
  simp [isBlank, ne_of_isWordChar hc (d := ' ') (by decide), ne_of_isWordChar hc (d := '\t') (by decide)]

/-- Canonical text has words, and between them commas and spaces. -/
def isTextChar (c : Char) : Bool := isWordChar c || c == ',' || c == ' '

theorem toLower_of_isTextChar {c : Char} (hc : isTextChar c = true) : c.toLower = c := by
  rw [Char.toLower, dif_neg]
  rintro ⟨hA, hZ⟩
  have upper : 65 ≤ c.toNat ∧ c.toNat ≤ 90 := ⟨UInt32.le_iff_toNat_le.mp hA, UInt32.le_iff_toNat_le.mp hZ⟩
  obtain ((lower | digit) | rfl) | rfl :
      ((97 ≤ c.toNat ∧ c.toNat ≤ 122 ∨ 48 ≤ c.toNat ∧ c.toNat ≤ 57) ∨ c = ',') ∨ c = ' ' := by
    simpa [isTextChar, isWordChar, Char.isLower, Char.isDigit, UInt32.le_iff_toNat_le] using hc
  · omega
  · omega
  · exact absurd upper (by decide)
  · exact absurd upper (by decide)

theorem ne_hash_of_isTextChar {c : Char} (hc : isTextChar c = true) : (c != '#') = true := by
  rw [bne_iff_ne]
  rintro rfl
  exact absurd hc (by decide)

/-- Canonical text holds no comment and no upper case, so reading it changes nothing (R100). -/
theorem lowered_eq_self {t : List Char} (h : ∀ c ∈ t, isTextChar c = true) :
    (t.takeWhile (· != '#')).map Char.toLower = t := by
  rw [List.takeWhile_eq_self_iff.mpr fun c hc => ne_hash_of_isTextChar (h c hc)]
  exact (List.map_congr_left fun c hc => toLower_of_isTextChar (h c hc)).trans (List.map_id t)

/-! #### Blanks at the ends -/

/-- No blank stands at either end. -/
structure Trimmed (t : List Char) : Prop where
  head : ∀ c ∈ t.head?, isBlank c = false
  last : ∀ c ∈ t.getLast?, isBlank c = false

theorem IsWord.trimmed {t : List Char} (h : IsWord t) : Trimmed t where
  head c hc := isBlank_of_isWordChar (h.chars c (List.mem_of_mem_head? hc))
  last c hc := isBlank_of_isWordChar (h.chars c (List.mem_of_mem_getLast? hc))

/-- Only the two ends count. -/
theorem Trimmed.append {a b : List Char} (ha : Trimmed a) (hb : Trimmed b) (hna : a ≠ []) (hnb : b ≠ [])
    (mid : List Char) : Trimmed (a ++ mid ++ b) where
  head c hc := ha.head c (by simpa [List.head?_append, hna] using hc)
  last c hc := hb.last c (by simpa [List.getLast?_append, hnb] using hc)

theorem dropWhile_isBlank_eq_self {t : List Char} (h : ∀ c ∈ t.head?, isBlank c = false) :
    t.dropWhile isBlank = t := by
  cases t with
  | nil => rfl
  | cons c cs => exact List.dropWhile_cons_of_neg (by simp [h c rfl])

theorem trimBlanks_append {b t : List Char} (hb : ∀ c ∈ b, isBlank c = true) (ht : Trimmed t) :
    trimBlanks (b ++ t) = t := by
  rw [trimBlanks, List.dropWhile_append_of_pos hb, dropWhile_isBlank_eq_self ht.head, dropWhile_isBlank_eq_self,
    List.reverse_reverse]
  rw [List.head?_reverse]
  exact ht.last

theorem Trimmed.trimBlanks_eq {t : List Char} (ht : Trimmed t) : trimBlanks t = t :=
  trimBlanks_append (b := []) (by simp) ht

/-! #### Commas -/

theorem splitCommas_ne_nil (t : List Char) : splitCommas t ≠ [] := by
  cases t with
  | nil => simp [splitCommas]
  | cons c cs =>
    rw [splitCommas]
    split
    · simp
    · split <;> simp

theorem splitCommas_cons_ne {c : Char} (hc : c ≠ ',') {cs t : List Char} {ts : List (List Char)}
    (h : splitCommas cs = t :: ts) : splitCommas (c :: cs) = (c :: t) :: ts := by
  simp [splitCommas, h, hc]

theorem splitCommas_append_comma {t : List Char} (ht : ∀ c ∈ t, c ≠ ',') (u : List Char) :
    splitCommas (t ++ ',' :: u) = t :: splitCommas u := by
  induction t with
  | nil =>
    obtain ⟨v, vs, h⟩ := List.exists_cons_of_ne_nil (splitCommas_ne_nil u)
    simp [splitCommas, h]
  | cons c cs ih =>
    rw [List.forall_mem_cons] at ht
    exact splitCommas_cons_ne ht.1 (ih ht.2)

theorem splitCommas_of_no_comma {t : List Char} (ht : ∀ c ∈ t, c ≠ ',') : splitCommas t = [t] := by
  induction t with
  | nil => rfl
  | cons c cs ih =>
    rw [List.forall_mem_cons] at ht
    exact splitCommas_cons_ne ht.1 (ih ht.2)

/-! #### A canonical line -/

/-- Operands in a row, the first one apart, separated as `asmText` separates them. -/
def operandText (t : List Char) : List (List Char) → List Char
  | [] => t
  | u :: us => t ++ [',', ' '] ++ operandText u us

/-- What follows the mnemonic. -/
def argText : List (List Char) → List Char
  | [] => []
  | t :: ts => [' '] ++ operandText t ts

/-- A mnemonic and its operands, as `asmText` writes them. -/
def lineText (mnemonic : List Char) (operands : List (List Char)) : List Char := mnemonic ++ argText operands

theorem operandText_ne_nil {t : List Char} (ht : t ≠ []) (ts : List (List Char)) : operandText t ts ≠ [] := by
  cases ts with
  | nil => exact ht
  | cons u us => simp [operandText]

theorem trimmed_operandText {t : List Char} {ts : List (List Char)} (h : ∀ u ∈ t :: ts, IsWord u) :
    Trimmed (operandText t ts) := by
  induction ts generalizing t with
  | nil => exact (h t (List.mem_singleton_self t)).trimmed
  | cons u us ih =>
    obtain ⟨ht, hus⟩ := List.forall_mem_cons.mp h
    exact ht.trimmed.append (ih hus) ht.ne_nil (operandText_ne_nil (hus u List.mem_cons_self).ne_nil us) _

theorem isTextChar_of_mem_operandText {t : List Char} {ts : List (List Char)} (h : ∀ u ∈ t :: ts, IsWord u) {c : Char}
    (hc : c ∈ operandText t ts) : isTextChar c = true := by
  induction ts generalizing t with
  | nil => simp [isTextChar, (h t (List.mem_singleton_self t)).chars c hc]
  | cons u us ih =>
    obtain ⟨ht, hus⟩ := List.forall_mem_cons.mp h
    simp only [operandText, List.mem_append, List.mem_cons, List.not_mem_nil, or_false] at hc
    obtain (hc | rfl | rfl) | hc := hc
    · simp [isTextChar, ht.chars c hc]
    · rfl
    · rfl
    · exact ih hus hc

/-- Splitting at the commas and trimming gives the operands back (R100); blanks may come first. -/
theorem trimmed_splitCommas {b t : List Char} {ts : List (List Char)} (hb : ∀ c ∈ b, isBlank c = true)
    (h : ∀ u ∈ t :: ts, IsWord u) : (splitCommas (b ++ operandText t ts)).map trimBlanks = t :: ts := by
  have noComma : ∀ {t : List Char}, IsWord t → ∀ {b : List Char}, (∀ c ∈ b, isBlank c = true) →
      ∀ c ∈ b ++ t, c ≠ ',' := by
    rintro t ht b hb c hc rfl
    obtain hc | hc := List.mem_append.mp hc
    · exact absurd (hb _ hc) (by decide)
    · exact absurd (ht.chars _ hc) (by decide)
  induction ts generalizing b t with
  | nil =>
    have ht := h t (List.mem_singleton_self t)
    rw [operandText, splitCommas_of_no_comma (noComma ht hb), List.map_singleton, trimBlanks_append hb ht.trimmed]
  | cons u us ih =>
    obtain ⟨ht, hus⟩ := List.forall_mem_cons.mp h
    have text : b ++ operandText t (u :: us) = (b ++ t) ++ ',' :: ([' '] ++ operandText u us) := by simp [operandText]
    rw [text, splitCommas_append_comma (noComma ht hb), List.map_cons, trimBlanks_append hb ht.trimmed,
      ih (List.forall_mem_singleton.mpr rfl) hus]

theorem isTextChar_of_mem_lineText {m : List Char} (hm : IsWord m) {ops : List (List Char)} (h : ∀ t ∈ ops, IsWord t)
    {c : Char} (hc : c ∈ lineText m ops) : isTextChar c = true := by
  obtain hc | hc := List.mem_append.mp hc
  · simp [isTextChar, hm.chars c hc]
  · cases ops with
    | nil => cases hc
    | cons t ts =>
      obtain rfl | hc := List.mem_cons.mp hc
      · rfl
      · exact isTextChar_of_mem_operandText h hc

theorem trimmed_lineText {m : List Char} (hm : IsWord m) {ops : List (List Char)} (h : ∀ t ∈ ops, IsWord t) :
    Trimmed (lineText m ops) := by
  cases ops with
  | nil => simpa [lineText, argText] using hm.trimmed
  | cons t ts =>
    rw [lineText, argText, ← List.append_assoc]
    exact hm.trimmed.append (trimmed_operandText h) hm.ne_nil (operandText_ne_nil (h t List.mem_cons_self).ne_nil ts) _

/-- The mnemonic ends at the first blank. -/
theorem takeWhile_lineText {m : List Char} (hm : IsWord m) (ops : List (List Char)) :
    (lineText m ops).takeWhile (fun c => !isBlank c) = m := by
  rw [lineText, List.takeWhile_append_of_pos fun c hc => by simp [isBlank_of_isWordChar (hm.chars c hc)]]
  cases ops <;> simp [argText, isBlank]

theorem dropWhile_lineText {m : List Char} (hm : IsWord m) (ops : List (List Char)) :
    (lineText m ops).dropWhile (fun c => !isBlank c) = argText ops := by
  rw [lineText, List.dropWhile_append_of_pos fun c hc => by simp [isBlank_of_isWordChar (hm.chars c hc)]]
  cases ops <;> simp [argText, isBlank]

/-- What follows the mnemonic is read as the operands (R100). -/
theorem operands_of_argText {ops : List (List Char)} (h : ∀ t ∈ ops, IsWord t) :
    (if (trimBlanks (argText ops)).isEmpty then [] else (splitCommas (trimBlanks (argText ops))).map trimBlanks) =
      ops := by
  cases ops with
  | nil => rfl
  | cons t ts =>
    have notEmpty : ¬(operandText t ts).isEmpty = true := by
      rw [List.isEmpty_iff]
      exact operandText_ne_nil (h t List.mem_cons_self).ne_nil ts
    rw [argText, trimBlanks_append (List.forall_mem_singleton.mpr rfl) (trimmed_operandText h), if_neg notEmpty]
    exact trimmed_splitCommas (b := []) (by simp) h

/-- A canonical line is read as its mnemonic and its operands (R100). -/
theorem assembleLine_lineText {line mnemonic : String} {ops : List (List Char)}
    (hline : line.toList = lineText mnemonic.toList ops) (hm : IsWord mnemonic.toList) (hops : ∀ t ∈ ops, IsWord t) :
    assembleLine line = (assembleForm mnemonic ops).map some := by
  have text : trimBlanks ((line.toList.takeWhile (· != '#')).map Char.toLower) = lineText mnemonic.toList ops := by
    rw [hline, lowered_eq_self fun c hc => isTextChar_of_mem_lineText hm hops hc,
      (trimmed_lineText hm hops).trimBlanks_eq]
  have notEmpty : ¬(lineText mnemonic.toList ops).isEmpty = true := by
    rw [List.isEmpty_iff]
    exact List.append_ne_nil_of_left_ne_nil hm.ne_nil _
  rw [assembleLine]
  simp only [text, if_neg notEmpty, takeWhile_lineText hm, dropWhile_lineText hm, operands_of_argText hops,
    String.ofList_toList]
  cases assembleForm mnemonic ops <;> rfl

/-! #### Operands -/

theorem isDigit_of_mem_repr {n : Nat} : ∀ c ∈ (Nat.repr n).toList, c.isDigit = true := by
  rw [Nat.toList_repr]
  exact fun c => Nat.isDigit_of_mem_toDigits (by decide) (by decide)

theorem repr_ne_nil (n : Nat) : (Nat.repr n).toList ≠ [] := by
  rw [Nat.toList_repr]
  exact Nat.toDigits_ne_nil

theorem isWord_repr (n : Nat) : IsWord (Nat.repr n).toList where
  ne_nil := repr_ne_nil n
  chars c hc := by simp [isWordChar, isDigit_of_mem_repr c hc]

theorem isWord_regText (r : RegNum) : IsWord (regText r).toList where
  ne_nil := by simp [regText]
  chars := by
    rw [regText, String.toList_append, List.forall_mem_append]
    exact ⟨by simp [isWordChar], (isWord_repr r.val).chars⟩

theorem parseReg_regText (r : RegNum) : parseReg (regText r).toList = .ok r := by
  revert r
  decide

theorem digitValue_of_isDigit {c : Char} (h : c.isDigit = true) : digitValue 10 c = some (c.toNat - '0'.toNat) := by
  have range : '0' ≤ c ∧ c ≤ '9' := by
    rw [Char.isDigit, Bool.and_eq_true, decide_eq_true_iff, decide_eq_true_iff] at h
    exact h
  have small : c.toNat ≤ 57 := UInt32.le_iff_toNat_le.mp range.2
  have fits : c.toNat - '0'.toNat < 10 := show c.toNat - 48 < 10 by omega
  rw [digitValue]
  simp only [if_pos range, if_pos fits]

/-- Decimal digits are read as the library reads them. -/
theorem digitsValue_eq_ofDigitChars {t : List Char} (h : ∀ c ∈ t, c.isDigit = true) (n : Nat) :
    digitsValue 10 n t = some (Nat.ofDigitChars 10 t n) := by
  induction t generalizing n with
  | nil => rfl
  | cons c cs ih =>
    obtain ⟨hc, hcs⟩ := List.forall_mem_cons.mp h
    rw [digitsValue, digitValue_of_isDigit hc, Nat.ofDigitChars_cons]
    exact ih hcs _

theorem parseNumber_of_isDigit {t : List Char} (hne : t ≠ []) (h : ∀ c ∈ t, c.isDigit = true) :
    parseNumber t = digitsValue 10 0 t := by
  unfold parseNumber
  split
  · exact absurd rfl hne
  · exact absurd (h 'x' (by simp)) (by decide)
  · rfl

theorem parseNumber_repr (n : Nat) : parseNumber (Nat.repr n).toList = some n := by
  rw [parseNumber_of_isDigit (repr_ne_nil n) isDigit_of_mem_repr, digitsValue_eq_ofDigitChars isDigit_of_mem_repr,
    Nat.toList_repr, Nat.ofDigitChars_ten_toDigits]

@[simp] theorem withReg_regText {α : Type} (r : RegNum) (f : RegNum → Except AsmError α) :
    withReg (regText r).toList f = f r := by
  rw [withReg, parseReg_regText]

theorem withImm_repr {α : Type} (limit n : Nat) (f : Nat → Except AsmError α) :
    withImm limit (Nat.repr n).toList f = if n ≤ limit then f n else .error .notAnImmediate := by
  rw [withImm, parseImm, parseNumber_repr]
  by_cases h : n ≤ limit
  · simp only [if_pos h]
  · simp only [if_neg h]

/-! #### The canonical text of a command -/

/-- The canonical mnemonic (R103). -/
def mnemonicOf : Instr → String
  | .nop => "nop"
  | .radd _ _ _ => "radd"
  | .rsub _ _ _ => "rsub"
  | .rmul _ _ _ => "rmul"
  | .rrot _ _ _ => "rrot"
  | .rgen _ => "rgen"
  | .sred => "sred"
  | .menc _ _ => "menc"
  | .mthr _ _ => "mthr"
  | .mdec _ => "mdec"
  | .kgen => "kgen"
  | .pkder => "pkder"
  | .sgen => "sgen"
  | .spkder => "spkder"
  | .enc => "enc"
  | .dec => "dec"

/-- The canonical text of each operand (R101, R103). -/
def operandsOf : Instr → List String
  | .radd rd rs1 rs2 => [regText rd, regText rs1, regText rs2]
  | .rsub rd rs1 rs2 => [regText rd, regText rs1, regText rs2]
  | .rmul rd rs1 rs2 => [regText rd, regText rs1, regText rs2]
  | .rrot rd rs1 imm => [regText rd, regText rs1, Nat.repr imm]
  | .rgen rd => [regText rd]
  | .menc rd len => [regText rd, Nat.repr len]
  | .mthr rd rs1 => [regText rd, regText rs1]
  | .mdec rs1 => [regText rs1]
  | .nop | .sred | .kgen | .pkder | .sgen | .spkder | .enc | .dec => []

/-- The canonical text is a line of this form. -/
theorem toList_asmText (i : Instr) :
    (asmText i).toList = lineText (mnemonicOf i).toList ((operandsOf i).map String.toList) := by
  cases i <;> simp [asmText, operandsOf, mnemonicOf, lineText, argText, operandText]

/-- The form of a mnemonic reads each operand back (R101, R103). -/
theorem assembleForm_canonical {i : Instr} (h : i.wellFormed = true) :
    assembleForm (mnemonicOf i) ((operandsOf i).map String.toList) = .ok i := by
  cases i with
  | rrot rd rs1 imm =>
    have himm : imm < 65536 := of_decide_eq_true h
    simp [mnemonicOf, operandsOf, assembleForm, -Nat.toList_repr, withImm_repr, Nat.le_of_lt_succ himm]
  | menc rd len =>
    have hlen : len < 65536 := of_decide_eq_true h
    simp [mnemonicOf, operandsOf, assembleForm, -Nat.toList_repr, withImm_repr, Nat.le_of_lt_succ hlen]
  | _ => simp [mnemonicOf, operandsOf, assembleForm]

theorem isWord_mnemonicOf (i : Instr) : IsWord (mnemonicOf i).toList := by
  cases i <;> exact ⟨by simp [mnemonicOf], by simp [mnemonicOf, isWordChar]⟩

theorem isWord_of_mem_operandsOf {i : Instr} : ∀ t ∈ (operandsOf i).map String.toList, IsWord t := by
  cases i <;> simp [operandsOf, -Nat.toList_repr, isWord_regText, isWord_repr]

/-- Settles O5: the text of a command is its mnemonic and its operands, and each is read back. -/
theorem canonicalTextAssembles : Obligations.CanonicalTextAssembles := by
  intro i h
  rw [assembleLine_lineText (toList_asmText i) (isWord_mnemonicOf i) isWord_of_mem_operandsOf, assembleForm_canonical h]
  rfl

end Sys2Proof.Machine

/-! ### The pseudo-instructions (R105) -/

namespace Sys2Proof.Machine

/-! #### Their text -/

theorem assembleLine_rmov (rd rs : RegNum) :
    assembleLine ("rmov " ++ regText rd ++ ", " ++ regText rs) = .ok (some (.rrot rd rs 0)) := by
  rw [assembleLine_lineText (mnemonic := "rmov") (ops := [(regText rd).toList, (regText rs).toList])
    (by simp [lineText, argText, operandText]) ⟨by simp, by simp [isWordChar]⟩ (by simp [isWord_regText])]
  simp [assembleForm, Except.map]

theorem assembleLine_rclr (rd : RegNum) : assembleLine ("rclr " ++ regText rd) = .ok (some (.rsub rd rd rd)) := by
  rw [assembleLine_lineText (mnemonic := "rclr") (ops := [(regText rd).toList])
    (by simp [lineText, argText, operandText]) ⟨by simp, by simp [isWordChar]⟩ (by simp [isWord_regText])]
  simp [assembleForm, Except.map]

theorem assembleLine_rmulx (rd rs : RegNum) (k : Nat) :
    assembleLine ("rmulx " ++ regText rd ++ ", " ++ regText rs ++ ", " ++ Nat.repr k) =
      if k ≤ 255 then .ok (some (.rrot rd rs k)) else .error .notAnImmediate := by
  rw [assembleLine_lineText (mnemonic := "rmulx")
    (ops := [(regText rd).toList, (regText rs).toList, (Nat.repr k).toList])
    (by simp [lineText, argText, operandText]) ⟨by simp, by simp [isWordChar]⟩
    (by simp [isWord_regText, isWord_repr, -Nat.toList_repr])]
  simp only [assembleForm, withReg_regText, withImm_repr]
  split <;> rfl

/-! #### Their effect -/

/-- Rotation by 0 is the identity (R148). -/
theorem rotateRight_zero (v : RingVec) : v.rotateRight 0 = v := by
  have same : RingVec.rotatedTerm v.coeff 0 = v.coeff := funext fun d => if_pos rfl
  rw [RingVec.rotateRight, same, RingVec.tabulate_coeff]

theorem rotatedTerm_zero (shift d : Nat) : RingVec.rotatedTerm (fun _ => 0) shift d = 0 := by
  simp [RingVec.rotatedTerm]

/-- The exact product with `x^k` is the rotation by `k` (R151, R153). -/
theorem exactProduct_monomial (v : RingVec) {k d : Nat} (hk : k < 256) (hd : d < 256) :
    v.exactProduct (RingVec.monomial k 1) d = RingVec.rotatedTerm v.coeff k d := by
  have one : Canonical 1 := by decide
  rw [RingVec.exactProduct, ← Laws.sum_rotatedTerm _ _ hd, Finset.sum_eq_single_of_mem k (Finset.mem_range.mpr hk)]
  · simp only [RingVec.coeff_monomial hk one, if_true, mul_one]
  · intro i hi hne
    simp only [RingVec.coeff_monomial (Finset.mem_range.mp hi) one, if_neg hne, mul_zero, rotatedTerm_zero]

/-- Rotation of a canonical ring is multiplication by `x^k` (R153). -/
theorem rotateRight_eq_mul_monomial {v : RingVec} (hv : v.IsCanonical) {k : Nat} (hk : k < 256) :
    v.rotateRight k = v.mul (RingVec.monomial k 1) := by
  refine RingVec.ext_coeff fun d hd => ?_
  have product := Laws.coeff_mul_isReduced v (RingVec.monomial k 1) hd
  rw [exactProduct_monomial v hk hd] at product
  rw [RingVec.coeff_rotateRight hv k hd]
  exact canonical_unique (RingVec.canonical_rotatedTerm hv k hd) product.1 product.2.symm

theorem sub_self_eq_zero (v : RingVec) (fa : Bool) : v.sub v fa = RingVec.zero := by
  refine RingVec.ext_coeff fun k hk => ?_
  rw [RingVec.coeff_sub v v fa hk, Int.sub_self, RingVec.coeff_zero, reduce_of_canonical (by decide), ite_self]

/-- Settles O6: the three lines expand to their commands, and these copy, multiply by `x^k` and clear. -/
theorem pseudoInstructionsAreExact : Obligations.PseudoInstructionsAreExact := by
  refine ⟨assembleLine_rmov, fun rd rs k hk => ?_, fun rd rs k hk => ?_, assembleLine_rclr, rotateRight_zero,
    fun v k hv hk => rotateRight_eq_mul_monomial hv (Nat.lt_succ_of_le hk), sub_self_eq_zero⟩
  · rw [assembleLine_rmulx, if_pos hk]
  · rw [assembleLine_rmulx, if_neg (Nat.not_le.mpr hk)]

end Sys2Proof.Machine

/-! ### Submission (R120 to R122) -/

namespace Sys2Proof.Machine

variable {s : State} {v : Word} {i : Instr} {code : ErrCode}

theorem submit_busy (hp : s.phase = .busy) (v : Word) : submit v s = raiseError .busy s := by
  simp [submit, State.isBusy, hp]

theorem submit_refused (hp : s.phase = .idle) (hd : decode v = .ok i) (he : submissionError i = some code) :
    submit v s = refuse code s := by
  simp [submit, State.isBusy, hp, hd, he]

theorem submit_accepted (hp : s.phase = .idle) (hd : decode v = .ok i) (he : submissionError i = none) :
    submit v s = accept v (drawsNeeded i) s := by
  simp [submit, State.isBusy, hp, hd, he]

/-- MENC takes a length up to 32, the message's capacity (R120, R201). -/
theorem submissionError_menc (rd : RegNum) (len : Nat) :
    submissionError (.menc rd len) = if 32 < len then some .tooLong else none := by
  simp [submissionError, lengthTooLong]

/-- Submission accepts every command but a MENC whose length is above 32 (R120). -/
theorem submissionError_eq_none (h : ∀ rd len, i = .menc rd len → len ≤ 32) : submissionError i = none := by
  cases i with
  | menc rd len => rw [submissionError_menc, if_neg (Nat.not_lt.mpr (h rd len rfl))]
  | _ => rfl

/-- Settles O9: CMD is open in every phase, and a write of it is the submission of its word. -/
theorem submissionRefusesOrAccepts : Obligations.SubmissionRefusesOrAccepts := by
  intro s off v ts ht hk hr
  have submits : step s = .next (submit v { s with turns := ts }) := step_write_hostReg (hostReg_cmd hk) ht hr rfl
  rw [submits]
  refine ⟨fun hp => ?_, fun hp ⟨e, hd⟩ => ?_, fun hp ⟨rd, len, hd, hlen⟩ => ?_, fun i hp hd hlen => ?_⟩
  · rw [submit_busy (s := { s with turns := ts }) hp]
    rfl
  · rw [submit_illegal (s := { s with turns := ts }) hp (by simp [hd])]
    rfl
  · have tooLong : submissionError (.menc rd len) = some .tooLong := by rw [submissionError_menc, if_pos hlen]
    rw [submit_refused (s := { s with turns := ts }) hp hd tooLong]
    rfl
  · rw [submit_accepted (s := { s with turns := ts }) hp hd (submissionError_eq_none hlen)]
    cases i <;> rfl

end Sys2Proof.Machine

/-! ### The turn that runs the latched command (R123, R126) -/

namespace Sys2Proof.Machine

variable {s : State}

/-- Settles O7: the engine's turn on a command that needs no draw is the command's completion. -/
theorem engineTurnRunsLatchedCommand : Obligations.EngineTurnRunsLatchedCommand := by
  intro s w i hr hp hn hc hd hturn
  rw [step_engine hturn]
  exact engineTurn_complete (s := { s with turns := s.turns.tail }) hr hp hn hc hd

/-- A latched word that does not decode ends as its submission would have ended (R122). -/
theorem engineTurn_refuse (hr : s.rst = false) (hp : s.phase = .busy) (hn : s.need = 0) {w : Word} {e : Illegal}
    (hc : s.cmd = some w) (hd : decode w = .error e) : engineTurn s = .next (refuseLatched .illegal s) := by
  simp [engineTurn, hr, hp, hn, completion, hc, hd]

/-- After a word is latched by hand the engine has the turn. -/
theorem turns_withLatchedWord (s : State) (w : Word) :
    (withLatchedWord s w).turns = [] ∨ (withLatchedWord s w).turns.head? = some .engine := by
  cases hs : s.turns with
  | nil => exact .inl (by simp [withLatchedWord, hs])
  | cons t ts => exact .inr (by simp [withLatchedWord, hs])

theorem decodeTableWord_eq_some_iff {nbits w : Nat} {i : Instr} :
    decodeTableWord nbits w = some i ↔ decode (tableWord nbits w) = .ok i := by
  rw [decodeTableWord]
  cases decode (tableWord nbits w) <;> simp [Except.toOption]

theorem decodeTableWord_eq_none_iff {nbits w : Nat} :
    decodeTableWord nbits w = none ↔ ∃ e, decode (tableWord nbits w) = .error e := by
  rw [decodeTableWord]
  cases decode (tableWord nbits w) <;> simp [Except.toOption]

/-- Settles O8: the word stands latched in a busy engine that needs no draw and has the turn. -/
theorem fetchWordRunsDecodedCommand : Obligations.FetchWordRunsDecodedCommand := by
  intro s nbits w t
  have hturn : t.turns = [] ∨ t.turns.head? = some .engine := turns_withLatchedWord s (tableWord nbits w)
  refine ⟨fun i hi => ?_, fun hnone => ?_⟩
  · exact engineTurnRunsLatchedCommand t _ i rfl rfl rfl rfl (decodeTableWord_eq_some_iff.mp hi) hturn
  · obtain ⟨e, hd⟩ := decodeTableWord_eq_none_iff.mp hnone
    rw [step_engine hturn, engineTurn_refuse (s := { t with turns := t.turns.tail }) rfl rfl rfl rfl hd]
    rfl

/-- Settles O12: NOP's completion is the end of every completion, with no write before it. -/
theorem nopOnlyCompletes : Obligations.NopOnlyCompletes := fun _ => rfl

end Sys2Proof.Machine

/-! ### What a completion reads (R123, R124) -/

namespace Sys2Proof.Machine

variable {s s' u u' : State}

/-- The two states agree in everything that a completion reads (R123). -/
structure SameOperands (s s' : State) : Prop where
  rr       : s.rr = s'.rr
  scalarIn : s.scalarIn = s'.scalarIn
  msg      : s.msg = s'.msg
  fa       : s.fa = s'.fa
  drawbuf  : s.drawbuf = s'.drawbuf

/-- `u` comes from `s`, and `u'` from `s'`, by the same writes: the rings and MSG agree, and SCALAR_OUT and DEC_LEN
agree or have been written in neither. -/
structure WrittenAlike (s s' u u' : State) : Prop where
  rr        : u.rr = u'.rr
  msg       : u.msg = u'.msg
  scalarOut : u.scalarOut = u'.scalarOut ∨ (u.scalarOut = s.scalarOut ∧ u'.scalarOut = s'.scalarOut)
  decLen    : u.decLen = u'.decLen ∨ (u.decLen = s.decLen ∧ u'.decLen = s'.decLen)

namespace WrittenAlike

theorem complete (h : WrittenAlike s s' u u') : WrittenAlike s s' (complete u) (complete u') := { h with }

theorem disturbTemporaries (h : WrittenAlike s s' u u') :
    WrittenAlike s s' (disturbTemporaries u) (disturbTemporaries u') := { h with }

theorem setRing (h : WrittenAlike s s' u u') (r : RegNum) {v v' : RingVec} (hv : v = v') :
    WrittenAlike s s' (u.setRing r v) (u'.setRing r v') := by
  subst hv
  exact { h with rr := rr_setRing_congr h.rr r v }

theorem setMessage (h : WrittenAlike s s' u u') {out out' : List Byte} (ho : out = out') :
    WrittenAlike s s' (u.setMessage out) (u'.setMessage out') := by
  subst ho
  exact { h with msg := by simp, decLen := .inl (by simp) }

theorem setPkRecv (h : WrittenAlike s s' u u') {fa fa' : Bool} (hfa : fa = fa') :
    WrittenAlike s s' ((u.setRing Role.p0 (pkRecv u fa).1).setRing Role.p1 (pkRecv u fa).2)
      ((u'.setRing Role.p0 (pkRecv u' fa').1).setRing Role.p1 (pkRecv u' fa').2) := by
  have keys : pkRecv u fa = pkRecv u' fa' := by rw [hfa, pkRecv_congr h.rr]
  exact (h.setRing _ (by rw [keys])).setRing _ (by rw [keys])

theorem setPkSend (h : WrittenAlike s s' u u') {fa fa' : Bool} (hfa : fa = fa') :
    WrittenAlike s s' ((u.setRing Role.u0 (pkSend u fa).1).setRing Role.u1 (pkSend u fa).2)
      ((u'.setRing Role.u0 (pkSend u' fa').1).setRing Role.u1 (pkSend u' fa').2) := by
  have keys : pkSend u fa = pkSend u' fa' := by rw [hfa, pkSend_congr h.rr]
  exact (h.setRing _ (by rw [keys])).setRing _ (by rw [keys])

end WrittenAlike

namespace SameOperands

theorem refl_written (h : SameOperands s s') : WrittenAlike s s' s s' :=
  ⟨h.rr, h.msg, .inr ⟨rfl, rfl⟩, .inr ⟨rfl, rfl⟩⟩

theorem ring (h : SameOperands s s') (r : RegNum) : s.ring r = s'.ring r := ring_congr h.rr r

theorem fillRows (h : SameOperands s s') : ∀ (l : List RegNum) (n : Nat) {u u' : State}, WrittenAlike s s' u u' →
    WrittenAlike s s' (fillRows s l n u) (fillRows s' l n u')
  | [], _, _, _, w => w
  | r :: rs, n, _, _, w => h.fillRows rs (n + 1) (w.setRing r (drawRow_congr h.drawbuf n))

/-- Each command that submission accepts makes the same writes in two states with the same operands. -/
theorem exec (h : SameOperands s s') {i : Instr} (hi : submissionError i = none) :
    ∃ t t', exec i s = .next t ∧ exec i s' = .next t' ∧ WrittenAlike s s' t t' := by
  have start := h.refl_written
  cases i with
  | nop => exact ⟨_, _, rfl, rfl, start.complete⟩
  | sred =>
    have value : s.scalarValue = s'.scalarValue := congrArg BitVec.toInt h.scalarIn
    exact ⟨_, _, rfl, rfl, { start with scalarOut := .inl (by simp [value]) }⟩
  | radd rd rs1 rs2 => exact ⟨_, _, rfl, rfl, (start.setRing rd (by rw [h.ring, h.ring, h.fa])).complete⟩
  | rsub rd rs1 rs2 => exact ⟨_, _, rfl, rfl, (start.setRing rd (by rw [h.ring, h.ring, h.fa])).complete⟩
  | rmul rd rs1 rs2 =>
    exact ⟨_, _, rfl, rfl, (start.setRing rd (by rw [h.ring, h.ring])).disturbTemporaries.complete⟩
  | rrot rd rs1 imm => exact ⟨_, _, rfl, rfl, (start.setRing rd (by rw [h.ring])).complete⟩
  | rgen rd => exact ⟨_, _, rfl, rfl, (start.setRing rd (drawRow_congr h.drawbuf 0)).complete⟩
  | mthr rd rs1 => exact ⟨_, _, rfl, rfl, (start.setRing rd (by rw [h.ring])).complete⟩
  | mdec r => exact ⟨_, _, exec_mdec s r, exec_mdec s' r, (start.setMessage (by rw [h.ring])).complete⟩
  | menc rd len =>
    have fits : lengthTooLong len = false := by simpa [submissionError] using hi
    have bytes : s.msgByte = s'.msgByte := funext (msgByte_congr h.msg)
    exact ⟨_, _, exec_menc_fits rd fits s, exec_menc_fits rd fits s', (start.setRing rd (by rw [bytes])).complete⟩
  | kgen => exact ⟨_, _, rfl, rfl, ((h.fillRows kgenRows 0 start).setPkRecv h.fa).disturbTemporaries.complete⟩
  | pkder => exact ⟨_, _, rfl, rfl, (start.setPkRecv h.fa).disturbTemporaries.complete⟩
  | sgen => exact ⟨_, _, rfl, rfl, ((h.fillRows sgenRows 0 start).setPkSend h.fa).disturbTemporaries.complete⟩
  | spkder => exact ⟨_, _, rfl, rfl, (start.setPkSend h.fa).disturbTemporaries.complete⟩
  | enc =>
    exact ⟨_, _, rfl, rfl,
      (start.setRing _ (by rw [h.ring, h.fa, noiseTerm_congr h.rr])).disturbTemporaries.complete⟩
  | dec => exact ⟨_, _, rfl, rfl, (start.setRing _ (by rw [h.fa, noisy_congr h.rr])).disturbTemporaries.complete⟩

end SameOperands

/-- Settles O10: with the same operands every command makes the same writes, and every completion ends alike. -/
theorem completionReadsOnlyItsOperands : Obligations.CompletionReadsOnlyItsOperands := by
  intro i s s' hi hrr hin hmsg hfa hdraws
  obtain ⟨t, t', ht, ht', written⟩ := SameOperands.exec ⟨hrr, hin, hmsg, hfa, hdraws⟩ hi
  exact ⟨t, t', ht, ht', exec_completed ht, exec_completed ht', written.rr, written.msg, written.scalarOut,
    written.decLen⟩

end Sys2Proof.Machine

/-! ### A command in flight completes (R126, R171, R258, R259) -/

namespace Sys2Proof.Machine

variable {s : State}

/-- While the engine is busy a transaction changes CTRL, DONE, the error and the answer on the bus at most: the data
group is locked and a submission is refused (R74, R120). -/
theorem runTransaction_busy (hr : s.rst = false) (hp : s.phase = .busy) (tx : Transaction) :
    ∃ fulladd irqen done err errcode readData, runTransaction tx s = { s with
      fulladd := fulladd, irqen := irqen, done := done, err := err, errcode := errcode, readData := readData } := by
  cases tx with
  | read off =>
    cases hl : locked (hostReg off) s with
    | true => exact ⟨_, _, _, _, _, _, hostRead_locked off hr hl⟩
    | false => exact ⟨_, _, _, _, _, _, hostRead_open off hr hl⟩
  | write off v =>
    cases hl : locked (hostReg off) s with
    | true => exact ⟨_, _, _, _, _, _, hostWrite_locked off v hr hl⟩
    | false =>
      rw [runTransaction, hostWrite_open off v hr hl]
      rw [locked_busy _ hp] at hl
      generalize hostReg off = r at hl ⊢
      cases r with
      | id | ctrl | status | reserved => exact ⟨_, _, _, _, _, _, rfl⟩
      | cmd => exact ⟨_, _, _, _, _, _, submit_busy hp v⟩
      | scalarIn | scalarOut | winSel | decLen | msg | win => cases hl

/-- How many turns are listed and codes are on offer: what each step uses up until the command completes. -/
def State.pending (s : State) : Nat := s.turns.length + s.entropy.length

/-- A command is in flight, no listed turn asserts `rst`, and the entropy source offers at least as many codes other
than 0b10 as the command needs draws (R170, R171). -/
structure State.Supplied (s : State) : Prop where
  inv      : s.Inv
  released : s.rst = false
  noReset  : Turn.rst true ∉ s.turns
  busy     : s.phase = .busy
  enough   : s.need ≤ (s.entropy.filter fun c => c ≠ 0b10).length

theorem State.Supplied.afterTurn (hs : s.Supplied) : (afterTurn s).Supplied :=
  { hs with
    inv := inv_afterTurn hs.inv
    noReset := fun h => hs.noReset (List.mem_of_mem_tail h) }

theorem State.Supplied.runTransaction (hs : s.Supplied) (tx : Transaction) :
    (runTransaction tx s).Supplied ∧ (runTransaction tx s).pending = s.pending := by
  have inv := runTransaction_inv hs.inv tx
  obtain ⟨_, _, _, _, _, _, h⟩ := runTransaction_busy hs.released hs.busy tx
  rw [h] at inv ⊢
  exact ⟨{ hs with inv := inv }, rfl⟩

/-- While draws are needed a code is offered, and taking it leaves enough of the others (R170). -/
theorem State.Supplied.takeCode (hs : s.Supplied) (hn : 0 < s.need) :
    (takeCode s).Supplied ∧ (takeCode s).pending < s.pending := by
  have inv := takeCode_inv hs.inv hs.released hs.busy hn
  have enough := hs.enough
  obtain ⟨he, _⟩ | ⟨c, cs, he, hc, h⟩ | ⟨c, cs, v, he, hc, h⟩ := takeCode_cases s
  · simp [he] at enough
    omega
  · have rejected := (drawOfCode_eq_none c).mp hc
    rw [h] at inv ⊢
    exact ⟨{ hs with inv := inv, enough := by simpa [he, rejected] using enough }, by simp [State.pending, he]⟩
  · have usable : c ≠ 0b10 := fun e => by simp [(drawOfCode_eq_none c).mpr e] at hc
    rw [he, List.filter_cons_of_pos (by simpa using usable), List.length_cons] at enough
    rw [h] at inv ⊢
    exact ⟨{ hs with inv := inv, enough := Nat.sub_le_of_le_add enough }, by simp [State.pending, he]⟩

/-- The engine's turn completes the command or uses up a code. -/
theorem State.Supplied.engineTurn (hs : s.Supplied) :
    ∃ t, engineTurn s = .next t ∧ (Completed t ∨ (t.Supplied ∧ t.pending < s.pending)) := by
  obtain hn | hn := Nat.eq_zero_or_pos s.need
  · obtain ⟨_, i, ⟨w, latched, decodes, _⟩, _⟩ := hs.inv.busy hs.busy
    obtain ⟨t, ht⟩ := exec_next i s
    exact ⟨t, (engineTurn_complete hs.released hs.busy hn latched decodes).trans ht, .inl (exec_completed ht)⟩
  · exact ⟨_, engineTurn_draw hs.released hs.busy hn, .inr (hs.takeCode hn)⟩

theorem State.Supplied.step (hs : s.Supplied) :
    ∃ t, step s = .next t ∧ (Completed t ∨ (t.Supplied ∧ t.pending < s.pending)) := by
  have later := hs.afterTurn
  cases hturns : s.turns with
  | nil =>
    obtain ⟨t, ht, h⟩ := later.engineTurn
    have same : (Machine.afterTurn s).pending = s.pending := by simp [State.pending, hturns]
    exact ⟨t, (step_engine (.inl hturns)).trans ht, same ▸ h⟩
  | cons turn ts =>
    have listed : turnOf s = turn := by simp [turnOf, hturns]
    have shorter : (Machine.afterTurn s).pending < s.pending := by simp [State.pending, hturns]
    rw [Machine.step, listed]
    cases turn with
    | host tx =>
      obtain ⟨ht, same⟩ := later.runTransaction tx
      exact ⟨_, rfl, .inr ⟨ht, same.trans_lt shorter⟩⟩
    | engine =>
      obtain ⟨t, ht, h⟩ := later.engineTurn
      exact ⟨t, ht, h.imp_right fun ⟨ht, fewer⟩ => ⟨ht, fewer.trans shorter⟩⟩
    | rst level =>
      have release : level = false := by
        cases level with
        | false => rfl
        | true => exact absurd (hturns ▸ List.mem_cons_self) hs.noReset
      exact ⟨_, by rw [release, runTurn, setRst_idle later.released], .inr ⟨later, shorter⟩⟩

/-- Each step uses up a turn or a code until the command completes. -/
theorem State.Supplied.completes (hs : s.Supplied) : ∃ n t, core.run n s = .next t ∧ Completed t := by
  induction hm : s.pending using Nat.strong_induction_on generalizing s with
  | h m ih =>
    obtain ⟨t, ht, done | ⟨supplied, fewer⟩⟩ := hs.step
    · exact ⟨1, t, run_succ 0 ht, done⟩
    · obtain ⟨n, u, hu, done⟩ := ih t.pending (hm ▸ fewer) supplied rfl
      exact ⟨n + 1, u, (run_succ n ht).trans hu, done⟩

/-- Settles O59: the listed turns leave the command supplied, and then its draws arrive and it completes. -/
theorem commandCompletesAmidTurns : Obligations.CommandCompletesAmidTurns := by
  intro s inv released noReset busy enough
  obtain ⟨n, t, run, done⟩ := State.Supplied.completes ⟨inv, released, noReset, busy, enough⟩
  exact ⟨n, t, run, done.phase, done.done, done.drawbuf⟩

/-- Settles O13: with no turn listed none asserts `rst`. -/
theorem commandCompletesGivenDraws : Obligations.CommandCompletesGivenDraws := fun s inv released hturns =>
  commandCompletesAmidTurns s inv released (hturns ▸ List.not_mem_nil)

end Sys2Proof.Machine

/-! ### Modular reduction (R141, R142) -/

namespace Sys2Proof

/-- The representative differs from the value by a multiple of the modulus (R141). -/
theorem isReduced_iff_dvd {x y : Int} : IsReduced y x ↔ Canonical y ∧ (3329 : Int) ∣ x - y :=
  and_congr_right fun _ => Int.modEq_iff_dvd

theorem reduce_eq_iff {x y : Int} : reduce x = y ↔ IsReduced y x :=
  ⟨fun h => h ▸ reduce_isReduced x, reduce_of_isReduced⟩

/-- Settles O15: canonical values of one residue class are equal. -/
theorem reduceIsUniqueRepresentative : Obligations.ReduceIsUniqueRepresentative := fun _ _ => by
  rw [reduce_eq_iff, isReduced_iff_dvd, and_assoc]

/-- Folding gives the same value for every remainder convention (R142). -/
theorem foldRemainder_eq_reduce {m x : Int} (lower : -3329 < m) (upper : m < 3329) (hm : (3329 : Int) ∣ m - x) :
    foldRemainder m = reduce x := by
  refine (reduce_of_isReduced (isReduced_iff_dvd.mpr ?_)).symm
  unfold foldRemainder Config.span Config.maxMagnitude Canonical
  split
  · omega
  · split <;> omega

theorem reduce_neg (x : Int) : reduce (-x) = -reduce x :=
  reduce_of_isReduced ⟨RingVec.canonical_neg (reduce_canonical x), Int.ModEq.neg (reduce_emod x)⟩

theorem reduce_add_reduce_reduce (x y : Int) : reduce (reduce x + reduce y) = reduce (x + y) := by
  rw [reduce_reduce_add, reduce_add_reduce]

theorem reduce_mul_reduce_reduce (x y : Int) : reduce (reduce x * reduce y) = reduce (x * y) :=
  reduce_congr (Int.ModEq.mul (reduce_emod x) (reduce_emod y))

/-- Settles O16: each law compares values of one residue class. -/
theorem reduceLaws : Obligations.ReduceLaws := fun x y k =>
  ⟨reduce_canonical x, reduce_emod x, fun _ lower upper hm => foldRemainder_eq_reduce lower upper hm,
    reduce_of_canonical (reduce_canonical x), reduce_of_canonical, reduce_neg x,
    reduce_congr (Int.add_mul_emod_self_left x 3329 k), reduce_add_reduce_reduce x y, reduce_mul_reduce_reduce x y⟩

end Sys2Proof

/-! ### The completions of SRED, RADD, RSUB, RROT and RMUL (R143 to R152) -/

namespace Sys2Proof.Machine

/-- A canonical value survives sign extension to 32 bits (R36). -/
theorem toInt_ofInt_word {x : Int} (h : Canonical x) : (BitVec.ofInt 32 x).toInt = x := by
  obtain ⟨lower, upper⟩ := h
  rw [BitVec.toInt_ofInt, Int.bmod_eq_of_le_mul_two (by omega) (by omega)]

/-- Writing SCALAR_OUT and completing leaves everything else (R143). -/
theorem frame_scalarOut (s : State) (v : Word) : Frame [] true false false s (complete { s with scalarOut := v }) where
  rr := fun _ _ => rfl
  ctrl := ⟨rfl, rfl⟩
  err := ⟨rfl, rfl⟩
  scalarIn := rfl
  scalarOut := nofun
  winSel := rfl
  msg := fun _ => ⟨rfl, rfl⟩
  latched := ⟨rfl, rfl, rfl⟩
  temps := fun _ => rfl
  inputs := ⟨rfl, rfl, rfl⟩
  readData := rfl

/-- Settles O17: a representative fits SCALAR_OUT, so it is read back as it was written. -/
theorem sredWritesRepresentative : Obligations.SredWritesRepresentative := by
  intro s
  refine ⟨_, rfl, completed_complete _, frame_scalarOut s _, ?_⟩
  change IsReduced (BitVec.ofInt 32 (reduce s.scalarValue)).toInt s.scalarValue
  rw [toInt_ofInt_word (reduce_canonical _)]
  exact reduce_isReduced _

/-- Settles O18: the ring that RADD writes has the sum's lane values. -/
theorem raddAddsLanes : Obligations.RaddAddsLanes := by
  intro s rd rs1 rs2
  refine ⟨_, rfl, completed_complete _, frame_setRing s rd _, fun k hk => ?_⟩
  rw [ring_complete, ring_setRing_self]
  exact RingVec.laneValue_add _ _ _ hk

/-- Settles O19: the ring that RSUB writes has the difference's lane values. -/
theorem rsubSubtractsLanes : Obligations.RsubSubtractsLanes := by
  intro s rd rs1 rs2
  refine ⟨_, rfl, completed_complete _, frame_setRing s rd _, fun k hk => ?_⟩
  rw [ring_complete, ring_setRing_self]
  exact RingVec.laneValue_sub _ _ _ hk

/-- Rotation by `k` carries source index `i` to `(i + k) mod 256`, negated where it wraps (R148). -/
theorem rotatedTerm_destination (v : Nat → Int) {k i : Nat} (hk : k < 256) (hi : i < 256) :
    RingVec.rotatedTerm v k ((i + k) % 256) = if (i + k) % 256 < k then -v i else v i := by
  have source : ((i + k) % 256 + 256 - k) % 256 = i := by omega
  rw [RingVec.rotatedTerm, Nat.mod_eq_of_lt hk, source]
  split
  case isTrue still => simp [still, Nat.mod_eq_of_lt hi]
  case isFalse => rfl

/-- Settles O20: the coefficient that stands at `(i + k) mod 256` comes from index `i`. -/
theorem rrotMovesAndNegatesWrapped : Obligations.RrotMovesAndNegatesWrapped := by
  intro s rd rs1 imm
  refine ⟨_, rfl, completed_complete _, frame_setRing s rd _, fun canonical i hi => ?_⟩
  rw [ring_complete, ring_setRing_self, RingVec.coeff_rotateRight canonical _ (Nat.mod_lt _ (by decide))]
  exact rotatedTerm_destination _ (Nat.mod_lt _ (by decide)) hi

/-- Settles O21: RMUL writes `ring_mul`, whose coefficients represent the exact product's. -/
theorem rmulMultipliesNegacyclically : Obligations.RmulMultipliesNegacyclically := by
  intro s rd rs1 rs2
  refine ⟨_, rfl, completed_complete _, frame_of_rr s _ [rd] rfl fun r hr => ?_, fun k hk => ?_⟩
  · exact ring_setRing_of_ne s _ (List.ne_of_not_mem_cons hr)
  · rw [ring_complete, ring_disturbTemporaries, ring_setRing_self]
    exact Laws.coeff_mul_isReduced _ _ hk

/-- Settles O22: the coefficient is the representative of the exact product, which is the closed form. -/
theorem ringMulEqualsClosedForm : Obligations.RingMulEqualsClosedForm := fun a b _ hk =>
  (reduce_of_isReduced (Laws.coeff_mul_isReduced a b hk)).symm

end Sys2Proof.Machine

/-! ### The laws of the ring commands (R153) -/

namespace Sys2Proof.RingVec

/-! #### Addition -/

theorem add_comm (a b : RingVec) (fa : Bool) : a.add b fa = b.add a fa := by
  refine ext_coeff fun k hk => ?_
  rw [coeff_add a b fa hk, coeff_add b a fa hk, Int.add_comm]

/-- Index 255 with `fa = 0` is 0 on both sides; elsewhere a sum may be reduced after each addition. -/
theorem add_assoc (a b c : RingVec) (fa : Bool) : (a.add b fa).add c fa = a.add (b.add c fa) fa := by
  refine ext_coeff fun k hk => ?_
  simp only [coeff_add _ _ fa hk]
  split
  case isTrue => rw [reduce_reduce_add, reduce_add_reduce, Int.add_assoc]
  case isFalse => rfl

/-- Adding the zero ring keeps every index that is computed (R144). -/
theorem coeff_add_zero {a : RingVec} (ha : a.IsCanonical) (fa : Bool) {k : Nat} (hk : k < 256) :
    (a.add zero fa).coeff k = if k < computedIndices fa then a.coeff k else 0 := by
  rw [coeff_add _ _ _ hk, coeff_zero, Int.add_zero, reduce_of_canonical (ha k hk)]

/-! #### Multiplication, modulo 3329 -/

/-- Canonical rings are equal when their coefficients agree modulo 3329 (R142). -/
theorem ext_of_cast_coeff {a b : RingVec} (ha : a.IsCanonical) (hb : b.IsCanonical)
    (h : ∀ k < 256, (a.coeff k : ZMod 3329) = (b.coeff k : ZMod 3329)) : a = b :=
  ext_coeff fun k hk => canonical_unique (ha k hk) (hb k hk) ((ZMod.intCast_eq_intCast_iff' _ _ 3329).mp (h k hk))

theorem cast_coeff_mul (a b : RingVec) {k : Nat} (hk : k < 256) :
    ((a.mul b).coeff k : ZMod 3329) =
      Laws.negConv (fun i => (a.coeff i : ZMod 3329)) (fun i => (b.coeff i : ZMod 3329)) k := by
  rw [← Laws.cast_negacyclicSum _ _ hk]
  exact (ZMod.intCast_eq_intCast_iff' _ _ 3329).mpr (Laws.coeff_mul_isReduced a b hk).2

theorem cast_coeff_add (a b : RingVec) {k : Nat} (hk : k < 256) :
    ((a.add b true).coeff k : ZMod 3329) = a.coeff k + b.coeff k := by
  have lane := ((laneValue_add a b true hk).1 (.inr rfl)).2
  rw [(ZMod.intCast_eq_intCast_iff' _ _ 3329).mpr lane, Int.cast_add]

theorem mul_comm (a b : RingVec) : a.mul b = b.mul a := by
  refine ext_of_cast_coeff (isCanonical_mul a b) (isCanonical_mul b a) fun k hk => ?_
  rw [cast_coeff_mul a b hk, cast_coeff_mul b a hk, Laws.negConv_comm]

theorem mul_add_true (a b c : RingVec) : a.mul (b.add c true) = (a.mul b).add (a.mul c) true := by
  refine ext_of_cast_coeff (isCanonical_mul _ _) (isCanonical_add _ _ _) fun k hk => ?_
  rw [cast_coeff_add _ _ hk, cast_coeff_mul _ _ hk, cast_coeff_mul _ _ hk, cast_coeff_mul _ _ hk,
    ← Laws.negConv_add_right]
  exact Laws.negConv_congr (fun _ _ => rfl) (fun _ hi => cast_coeff_add b c hi) k

theorem mul_zero_eq_zero (a : RingVec) : a.mul zero = zero := by
  refine ext_coeff fun k hk => ?_
  have vanishes : a.exactProduct zero k = 0 := by simp [exactProduct, negacyclicSum, coeff_zero]
  rw [coeff_zero, ← reduce_of_isReduced (Laws.coeff_mul_isReduced a zero hk), vanishes,
    reduce_of_canonical (by decide)]

/-! #### Rotation, and the rings that fail distributivity with `fa = 0` -/

/-- The shift counts modulo 256 (R148). -/
theorem rotateRight_mod (v : RingVec) (shift : Nat) : v.rotateRight (shift % 256) = v.rotateRight shift := by
  have same : rotatedTerm v.coeff (shift % 256) = rotatedTerm v.coeff shift := by
    funext d
    simp [rotatedTerm]
  rw [rotateRight, same, rotateRight]

theorem isCanonical_monomial (k : Nat) {c : Int} (hc : Canonical c) : (monomial k c).IsCanonical := fun i hi => by
  rw [coeff_monomial hi hc]
  split
  · exact hc
  · decide

/-- With `fa = 0` the term at index 255 is lost (R144). -/
theorem monomial_255_add_zero : (monomial 255 1).add zero false = zero := by
  refine ext_coeff fun k hk => ?_
  rw [coeff_add_zero (isCanonical_monomial 255 (by decide)) false hk, coeff_monomial hk (by decide), coeff_zero]
  split
  case isTrue computed => exact if_neg (Nat.ne_of_lt computed)
  case isFalse => rfl

/-- `x * x^255 = x^256 = -1` (R153). -/
theorem monomial_1_mul_monomial_255 : (monomial 1 1).mul (monomial 255 1) = monomial 0 (-1) := by
  have canonical : (monomial 1 1).IsCanonical := isCanonical_monomial 1 (by decide)
  rw [← Machine.rotateRight_eq_mul_monomial canonical (by decide)]
  refine ext_coeff fun d hd => ?_
  rw [coeff_rotateRight canonical 255 hd, coeff_monomial hd (by decide), rotatedTerm, if_neg (by decide),
    coeff_monomial (Nat.mod_lt _ (by decide)) (by decide)]
  split_ifs <;> omega

theorem monomial_0_add_zero : (monomial 0 (-1)).add zero false = monomial 0 (-1) := by
  refine ext_coeff fun k hk => ?_
  rw [coeff_add_zero (isCanonical_monomial 0 (by decide)) false hk]
  split
  case isTrue => rfl
  case isFalse skipped =>
    have last : k ≠ 0 := fun h => skipped (h ▸ by decide)
    rw [coeff_monomial hk (by decide), if_neg last]

end Sys2Proof.RingVec

namespace Sys2Proof.Machine

open RingVec

/-- Settles O23: the laws hold modulo 3329, and canonical rings equal modulo 3329 are equal; with `fa = 0` the sum
`x^255 + 0` loses its term, and the product `x * x^255 = -1` does not. -/
theorem ringLaws : Obligations.RingLaws := by
  refine ⟨RingVec.mul_comm, fun a k ha hk => (rotateRight_eq_mul_monomial ha hk).symm,
    fun v => (rotateRight_mod v 256).symm.trans (rotateRight_zero v), RingVec.add_comm, RingVec.add_assoc, mul_add_true,
    ⟨?_, ?_⟩, sub_self_eq_zero⟩
  · rw [monomial_255_add_zero, mul_zero_eq_zero]
  · rw [mul_zero_eq_zero, monomial_1_mul_monomial_255, monomial_0_add_zero]

end Sys2Proof.Machine

/-! ### Draws arrive (R170, R171) -/

namespace Sys2Proof.Machine

variable {s : State}

/-- With no turn listed and a draw needed, a step takes the next code (R78, R170). -/
theorem step_draw (hr : s.rst = false) (ht : s.turns = []) (hp : s.phase = .busy) (hn : 0 < s.need) :
    step s = .next (takeCode s) := by
  have same : { s with turns := s.turns.tail } = s := by rw [ht, List.tail_nil, ← ht]
  rw [step_engine (.inl ht), same, engineTurn_draw hr hp hn]

theorem takeCode_nil (he : s.entropy = []) : takeCode s = s := by
  rw [takeCode, he]

/-- The offered code is consumed; a usable one appends its draw and lowers the need (R170). -/
theorem takeCode_cons {c : Code} {cs : List Code} (he : s.entropy = c :: cs) : takeCode s = { s with
    entropy := cs
    drawbuf := s.drawbuf ++ (drawOfCode c).toList
    need := s.need - (drawOfCode c).toList.length } := by
  rw [takeCode, he]
  cases hv : drawOfCode c with
  | none => simp [acceptCode, hv]
  | some v => simp [acceptCode, hv]

theorem entReady_iff (s : State) : s.entReady = true ↔ s.phase = .busy ∧ 0 < s.need := by
  simp [State.entReady, State.isBusy]

/-- Settles O51: a step of the busy engine takes the code on offer, and the table of R170 says what it stands for. -/
theorem offeredCodeIsConsumed : Obligations.OfferedCodeIsConsumed := by
  refine fun s => ⟨entReady_iff s, fun hr ht hp hn => ⟨fun he => ?_, fun cs he => ?_, fun c v cs hc he => ?_⟩⟩
  · rw [step_draw hr ht hp hn, takeCode_nil he]
  · have rejected : drawOfCode 0b10 = none := rfl
    rw [step_draw hr ht hp hn, takeCode_cons he, rejected, Option.toList_none, List.append_nil]
    rfl
  · have usable : drawOfCode c = some v := by
      simp only [List.mem_cons, Prod.mk.injEq, List.not_mem_nil, or_false] at hc
      obtain ⟨rfl, rfl⟩ | ⟨rfl, rfl⟩ | ⟨rfl, rfl⟩ := hc <;> rfl
    rw [step_draw hr ht hp hn, takeCode_cons he, usable]
    rfl

theorem filterMap_cons_toList {α β : Type} (f : α → Option β) (a : α) (l : List α) :
    (a :: l).filterMap f = (f a).toList ++ l.filterMap f := by
  rw [List.filterMap_cons]
  cases f a <;> rfl

/-- Settles O52, by induction on the codes: each step takes one, and while another is to come a draw is still needed. -/
theorem drawsArriveInOrder : Obligations.DrawsArriveInOrder := by
  intro s codes rest
  induction codes generalizing s with
  | nil => exact fun _ _ _ _ hne => absurd rfl hne
  | cons c cs ih =>
    intro hr ht hp he _ hneed
    rw [List.length_cons, run_succ _ (step_draw hr ht hp (Nat.zero_lt_of_lt hneed)), takeCode_cons he,
      filterMap_cons_toList]
    cases cs with
    | nil => simp [run_zero]
    | cons c' cs =>
      rw [List.dropLast_cons_cons, filterMap_cons_toList, List.length_append] at hneed
      have still := Nat.lt_sub_of_add_lt (Nat.add_comm _ _ ▸ hneed)
      refine (ih _ (by exact hr) (by exact ht) (by exact hp) rfl (List.cons_ne_nil _ _) still).trans ?_
      rw [List.append_assoc, List.length_append, Nat.sub_sub]

end Sys2Proof.Machine

/-! ### Thresholds and the decision margin (R181, R182, R185) -/

namespace Sys2Proof

namespace RingVec

/-- The threshold with its bound as a number: `half` is -832 (R181). -/
theorem decideSymbol_eq (x : Int) : decideSymbol x = if -832 ≤ x ∧ x ≤ 832 then 0 else -1664 := rfl

/-- The representative of `-1664 + n` wraps exactly when `n` is negative (R141). -/
theorem reduce_symbolOne_add {n : Int} (hn : Canonical n) :
    reduce (-1664 + n) = if 0 ≤ n then -1664 + n else 1665 + n := by
  apply reduce_of_isReduced
  split
  · exact ⟨by omega, rfl⟩
  · exact ⟨by omega, by omega⟩

theorem decideSymbol_reduce_zero_add {n : Int} (hn : Canonical n) :
    decideSymbol (reduce (0 + n)) = 0 ↔ -832 ≤ n ∧ n ≤ 832 := by
  rw [Int.zero_add, reduce_of_canonical hn, decideSymbol_eq]
  split_ifs with h <;> simp [h]

theorem decideSymbol_reduce_symbolOne_add {n : Int} (hn : Canonical n) :
    decideSymbol (reduce (-1664 + n)) = -1664 ↔ -832 ≤ n ∧ n ≤ 831 := by
  rw [reduce_symbolOne_add hn]
  split
  · rw [decideSymbol_eq]
    split <;> omega
  · rw [decideSymbol_eq]
    split <;> omega

theorem abs_rotatedTerm_le {v : Nat → Int} {bound : Int} (hv : ∀ j < 256, |v j| ≤ bound) (shift : Nat) {d : Nat}
    (hd : d < 256) : |rotatedTerm v shift d| ≤ bound := by
  have source : (d + 256 - shift % 256) % 256 < 256 := Nat.mod_lt _ (by decide)
  unfold rotatedTerm
  split_ifs
  · exact hv d hd
  · exact (abs_neg _).trans_le (hv _ source)
  · exact hv _ source

/-- An exact product coefficient of ternary rings is a sum of 256 terms of magnitude at most 1 (R151, R185). -/
theorem abs_exactProduct_le {a b : RingVec} (ha : a.IsTernary) (hb : b.IsTernary) {k : Nat} (hk : k < 256) :
    |a.exactProduct b k| ≤ 256 := by
  have term : ∀ i ∈ Finset.range 256, |rotatedTerm (fun j => a.coeff j * b.coeff i) i k| ≤ 1 := fun i hi => by
    refine abs_rotatedTerm_le (fun j hj => ?_) i hk
    rw [abs_mul]
    exact mul_le_one₀ (abs_le.mpr (ha j hj)) (abs_nonneg _) (abs_le.mpr (hb i (Finset.mem_range.mp hi)))
  rw [exactProduct, ← Laws.sum_rotatedTerm _ _ hk]
  exact (Finset.abs_sum_le_sum_abs _ _).trans (by simpa using Finset.sum_le_card_nsmul _ _ _ term)

end RingVec

namespace Machine

/-- Settles O30: every coefficient is thresholded. -/
theorem mthrThresholds : Obligations.MthrThresholds := by
  intro s rd rs1
  refine ⟨_, rfl, completed_complete _, frame_setRing s rd _, fun k hk => ?_⟩
  rw [ring_complete, ring_setRing_self, RingVec.coeff_threshold _ hk, RingVec.decideSymbol_eq]

/-- Settles O34: the threshold of both symbols with noise, and the product's coefficient, which is below 1664 and so
equals the exact one. -/
theorem decisionMargin : Obligations.DecisionMargin := by
  refine ⟨fun n hn => ⟨RingVec.decideSymbol_reduce_zero_add hn, RingVec.decideSymbol_reduce_symbolOne_add hn⟩,
    fun a b ha hb k hk => ?_⟩
  obtain ⟨lower, upper⟩ := abs_le.mp (RingVec.abs_exactProduct_le ha hb hk)
  have canonical : Canonical (a.exactProduct b k) := ⟨by omega, by omega⟩
  rw [← reduce_of_isReduced (Laws.coeff_mul_isReduced a b hk), reduce_of_canonical canonical]
  exact ⟨lower, upper⟩

end Machine

end Sys2Proof

/-! ### Draws and keys (R172 to R180, R183) -/

namespace Sys2Proof

namespace RingVec

/-- `a·b + c·d`, as the receiver, the sender, ENC and DEC sum two products (R173, R174, R180, R183). -/
def mulAddMul (a b c d : RingVec) (fa : Bool) : RingVec := (a.mul b).add (c.mul d) fa

/-- `a·b + c·d + e`, as R173, R174 and R180 compute it. -/
def mulAddMulAdd (a b c d e : RingVec) (fa : Bool) : RingVec := (mulAddMul a b c d fa).add e fa

theorem laneValue_mulAddMul (a b c d : RingVec) (fa : Bool) {k : Nat} (hk : k < 256) :
    LaneValue fa k ((mulAddMul a b c d fa).coeff k) (a.exactProduct b k + c.exactProduct d k) :=
  laneValue_congr (laneValue_add _ _ fa hk) fun _ =>
    Int.ModEq.add (Laws.coeff_mul_isReduced a b hk).2 (Laws.coeff_mul_isReduced c d hk).2

theorem laneValue_mulAddMulAdd (a b c d e : RingVec) (fa : Bool) {k : Nat} (hk : k < 256) :
    LaneValue fa k ((mulAddMulAdd a b c d e fa).coeff k) (a.exactProduct b k + c.exactProduct d k + e.coeff k) :=
  laneValue_congr (laneValue_add _ e fa hk) fun computed =>
    Int.ModEq.add_right _ ((laneValue_mulAddMul a b c d fa hk).1 computed).2

end RingVec

namespace Machine

open RingVec

variable {s t : State} {fa : Bool}

/-! #### The derived rings -/

theorem pkRecv_eq (s : State) (fa : Bool) : pkRecv s fa =
    (mulAddMulAdd (s.ring 4) (s.ring 0) (s.ring 5) (s.ring 1) (s.ring 2) fa,
     mulAddMulAdd (s.ring 6) (s.ring 0) (s.ring 7) (s.ring 1) (s.ring 3) fa) := rfl

theorem pkSend_eq (s : State) (fa : Bool) : pkSend s fa =
    (mulAddMulAdd (s.ring 4) (s.ring 10) (s.ring 6) (s.ring 11) (s.ring 12) fa,
     mulAddMulAdd (s.ring 5) (s.ring 10) (s.ring 7) (s.ring 11) (s.ring 13) fa) := rfl

/-- The ciphertext that ENC writes (R180). -/
def ciphertext (s : State) (fa : Bool) : RingVec := (noiseTerm s fa).add (s.ring Role.m) fa

theorem ciphertext_eq (s : State) (fa : Bool) : ciphertext s fa =
    mulAddMulAdd (s.ring 10) (s.ring 8) (s.ring 11) (s.ring 9) (s.ring 16) fa := rfl

theorem exec_enc (s : State) :
    exec .enc s = .next (complete (disturbTemporaries (s.setRing Role.c (ciphertext s s.fa)))) := rfl

/-- What DEC thresholds represents `c - (s0 u0 + s1 u1)` (R183). -/
theorem laneValue_noisy (s : State) (fa : Bool) {k : Nat} (hk : k < 256) :
    LaneValue fa k ((noisy s fa).coeff k) ((s.ring 17).coeff k -
      ((s.ring 0).exactProduct (s.ring 14) k + (s.ring 1).exactProduct (s.ring 15) k)) :=
  laneValue_congr (laneValue_sub _ (predicted s fa) fa hk) fun computed =>
    Int.ModEq.sub_left _ ((laneValue_mulAddMul _ _ _ _ fa hk).1 computed).2

/-! #### A pair of registers -/

/-- `(RR[p], RR[q]) <- v` (R176 to R179). -/
def State.setPair (s : State) (p q : RegNum) (v : RingVec × RingVec) : State := (s.setRing p v.1).setRing q v.2

theorem ring_setPair_fst (s : State) {p q : RegNum} (v : RingVec × RingVec) (h : p ≠ q) :
    (s.setPair p q v).ring p = v.1 := by
  rw [State.setPair, ring_setRing_of_ne _ _ h, ring_setRing_self]

theorem ring_setPair_snd (s : State) (p q : RegNum) (v : RingVec × RingVec) : (s.setPair p q v).ring q = v.2 :=
  ring_setRing_self ..

theorem ring_setPair_of_ne (s : State) {p q r : RegNum} (v : RingVec × RingVec) (hp : r ≠ p) (hq : r ≠ q) :
    (s.setPair p q v).ring r = s.ring r := by
  rw [State.setPair, ring_setRing_of_ne _ _ hq, ring_setRing_of_ne _ _ hp]

/-- A command that fills the registers `rows` with draws and then writes a pair changes these rings only. -/
theorem frame_fillRows_setPair (s : State) (rows : List RegNum) (p q : RegNum) (v : RingVec × RingVec) :
    Frame (rows ++ [p, q]) false false true s
      (complete (disturbTemporaries ((fillRows s rows 0 s).setPair p q v))) := by
  refine frame_of_rr s _ _ (setRing_of_rr (setRing_of_rr (fillRows_of_rr rows 0 rfl) p v.1) q v.2) fun r hr => ?_
  obtain ⟨hrows, hp, hq⟩ : r ∉ rows ∧ r ≠ p ∧ r ≠ q := by simpa using hr
  rw [ring_setPair_of_ne _ _ hp hq, ring_fillRows_of_notMem s rows 0 s hrows]

/-! #### The four commands that derive a key -/

/-- The completion of PKDER, and of KGEN once it has filled `rows` (R176, R177). -/
def deriveRecv (rows : List RegNum) (s : State) : State :=
  complete (disturbTemporaries ((fillRows s rows 0 s).setPair 8 9 (pkRecv (fillRows s rows 0 s) s.fa)))

/-- The completion of SPKDER, and of SGEN once it has filled `rows` (R178, R179). -/
def deriveSend (rows : List RegNum) (s : State) : State :=
  complete (disturbTemporaries ((fillRows s rows 0 s).setPair 14 15 (pkSend (fillRows s rows 0 s) s.fa)))

theorem exec_kgen (s : State) : exec .kgen s = .next (deriveRecv kgenRows s) := rfl

theorem exec_pkder (s : State) : exec .pkder s = .next (deriveRecv [] s) := rfl

theorem exec_sgen (s : State) : exec .sgen s = .next (deriveSend sgenRows s) := rfl

theorem exec_spkder (s : State) : exec .spkder s = .next (deriveSend [] s) := rfl

theorem completed_deriveRecv (rows : List RegNum) (s : State) : Completed (deriveRecv rows s) := completed_complete _

theorem completed_deriveSend (rows : List RegNum) (s : State) : Completed (deriveSend rows s) := completed_complete _

theorem frame_deriveRecv (rows : List RegNum) (s : State) :
    Frame (rows ++ [8, 9]) false false true s (deriveRecv rows s) := frame_fillRows_setPair s rows 8 9 _

theorem frame_deriveSend (rows : List RegNum) (s : State) :
    Frame (rows ++ [14, 15]) false false true s (deriveSend rows s) := frame_fillRows_setPair s rows 14 15 _

/-- Below the pair the registers hold what they held when the key was derived. -/
theorem ring_deriveRecv_of_lt (rows : List RegNum) (s : State) {r : RegNum} (h : r.val < 8) :
    (deriveRecv rows s).ring r = (fillRows s rows 0 s).ring r :=
  ring_setPair_of_ne _ _ (Fin.ne_of_lt h) (Fin.ne_of_lt (Nat.lt_succ_of_lt h))

theorem ring_deriveSend_of_lt (rows : List RegNum) (s : State) {r : RegNum} (h : r.val < 14) :
    (deriveSend rows s).ring r = (fillRows s rows 0 s).ring r :=
  ring_setPair_of_ne _ _ (Fin.ne_of_lt h) (Fin.ne_of_lt (Nat.lt_succ_of_lt h))

/-! #### Keys held -/

/-- RR8 and RR9 hold the public key of the receiver's rows (R173). -/
def RecvKeyHeld (fa : Bool) (s : State) : Prop := (s.ring 8, s.ring 9) = pkRecv s fa

/-- RR14 and RR15 hold the public key of the sender's rows (R174). -/
def SendKeyHeld (fa : Bool) (s : State) : Prop := (s.ring 14, s.ring 15) = pkSend s fa

theorem pkRecv_of_rings (h : ∀ r : RegNum, r.val < 8 → t.ring r = s.ring r) (fa : Bool) :
    pkRecv t fa = pkRecv s fa := by
  simp (disch := decide) only [pkRecv, h]

theorem pkSend_of_rings (h : ∀ r : RegNum, r.val < 14 → t.ring r = s.ring r) (fa : Bool) :
    pkSend t fa = pkSend s fa := by
  simp (disch := decide) only [pkSend, h]

theorem RecvKeyHeld.of_rings (hs : RecvKeyHeld fa s) (h : ∀ r : RegNum, r.val < 10 → t.ring r = s.ring r) :
    RecvKeyHeld fa t := by
  rw [RecvKeyHeld, pkRecv_of_rings fun r hr => h r (by omega), h 8 (by decide), h 9 (by decide), hs]

theorem SendKeyHeld.of_rings (hs : SendKeyHeld fa s) (h : ∀ r : RegNum, r.val < 16 → t.ring r = s.ring r) :
    SendKeyHeld fa t := by
  rw [SendKeyHeld, pkSend_of_rings fun r hr => h r (by omega), h 14 (by decide), h 15 (by decide), hs]

/-- The pair is written over neither a secret, a noise row nor the table (R173). -/
theorem recvKeyHeld_deriveRecv (rows : List RegNum) (s : State) : RecvKeyHeld s.fa (deriveRecv rows s) := by
  rw [RecvKeyHeld, pkRecv_of_rings fun _ => ring_deriveRecv_of_lt rows s]
  exact Prod.ext (ring_setPair_fst _ _ (by decide)) (ring_setPair_snd ..)

theorem sendKeyHeld_deriveSend (rows : List RegNum) (s : State) : SendKeyHeld s.fa (deriveSend rows s) := by
  rw [SendKeyHeld, pkSend_of_rings fun _ => ring_deriveSend_of_lt rows s]
  exact Prod.ext (ring_setPair_fst _ _ (by decide)) (ring_setPair_snd ..)

theorem RecvKeyHeld.laneValue (h : RecvKeyHeld fa s) {k : Nat} (hk : k < 256) :
    LaneValue fa k ((s.ring 8).coeff k)
      ((s.ring 4).exactProduct (s.ring 0) k + (s.ring 5).exactProduct (s.ring 1) k + (s.ring 2).coeff k) ∧
    LaneValue fa k ((s.ring 9).coeff k)
      ((s.ring 6).exactProduct (s.ring 0) k + (s.ring 7).exactProduct (s.ring 1) k + (s.ring 3).coeff k) := by
  obtain ⟨h8, h9⟩ := Prod.mk.inj (h.trans (pkRecv_eq s fa))
  rw [h8, h9]
  exact ⟨laneValue_mulAddMulAdd _ _ _ _ _ _ hk, laneValue_mulAddMulAdd _ _ _ _ _ _ hk⟩

theorem SendKeyHeld.laneValue (h : SendKeyHeld fa s) {k : Nat} (hk : k < 256) :
    LaneValue fa k ((s.ring 14).coeff k)
      ((s.ring 4).exactProduct (s.ring 10) k + (s.ring 6).exactProduct (s.ring 11) k + (s.ring 12).coeff k) ∧
    LaneValue fa k ((s.ring 15).coeff k)
      ((s.ring 5).exactProduct (s.ring 10) k + (s.ring 7).exactProduct (s.ring 11) k + (s.ring 13).coeff k) := by
  obtain ⟨h14, h15⟩ := Prod.mk.inj (h.trans (pkSend_eq s fa))
  rw [h14, h15]
  exact ⟨laneValue_mulAddMulAdd _ _ _ _ _ _ hk, laneValue_mulAddMulAdd _ _ _ _ _ _ hk⟩

/-! #### The draws land in their rows (R172) -/

theorem coeff_drawRow_zero (s : State) {k : Nat} (hk : k < 256) :
    (drawRow s 0).coeff k = (s.drawbuf.getD k .zero).toInt := by
  rw [coeff_drawRow s 0 hk, Nat.mul_zero, Nat.zero_add]

theorem kgenRows_getElem : ∀ (r : RegNum) (h : r.val < 8), kgenRows[r.val]'h = r := by decide

theorem sgenRows_getElem : ∀ (r : RegNum) (_ : 10 ≤ r.val) (h : r.val < 14),
    sgenRows[r.val - 10]'(show r.val - 10 < 4 by omega) = r := by decide

theorem ring_deriveRecv_kgenRows (s : State) {r : RegNum} (hr : r.val < 8) :
    (deriveRecv kgenRows s).ring r = drawRow s r.val := by
  have row := ring_fillRows s kgenRows 0 s (by decide) r.val hr
  rw [kgenRows_getElem r hr, Nat.zero_add] at row
  exact (ring_deriveRecv_of_lt _ s hr).trans row

theorem ring_deriveSend_sgenRows (s : State) {r : RegNum} (hl : 10 ≤ r.val) (hr : r.val < 14) :
    (deriveSend sgenRows s).ring r = drawRow s (r.val - 10) := by
  have row := ring_fillRows s sgenRows 0 s (by decide) (r.val - 10) (show r.val - 10 < 4 by omega)
  rw [sgenRows_getElem r hl hr, Nat.zero_add] at row
  exact (ring_deriveSend_of_lt _ s hr).trans row

/-! #### The obligations -/

/-- Settles O24: the row of draws that RGEN stores starts at draw 0. -/
theorem rgenFillsWithDraws : Obligations.RgenFillsWithDraws := by
  intro s rd
  refine ⟨_, rfl, completed_complete _, frame_setRing s rd _, fun k hk => ?_⟩
  rw [ring_complete, ring_setRing_self, coeff_drawRow_zero s hk]

/-- Settles O25: the rows hold the draws, and the key is derived from the rows it leaves. -/
theorem kgenDrawsAndDerives : Obligations.KgenDrawsAndDerives := by
  intro s
  refine ⟨_, exec_kgen s, completed_deriveRecv _ s, frame_deriveRecv kgenRows s, fun r hr k hk => ?_,
    fun k hk => (recvKeyHeld_deriveRecv kgenRows s).laneValue hk⟩
  rw [ring_deriveRecv_kgenRows s hr, coeff_drawRow s _ hk]

/-- Settles O26: PKDER keeps the rows from which it derives the key. -/
theorem pkderDerivesReceiverKey : Obligations.PkderDerivesReceiverKey := by
  intro s
  refine ⟨_, exec_pkder s, completed_deriveRecv _ s, frame_deriveRecv [] s, fun k hk => ?_⟩
  have key := (recvKeyHeld_deriveRecv [] s).laneValue hk
  simp (disch := decide) only [(frame_deriveRecv [] s).rr] at key
  exact key

/-- Settles O27: the rows hold the draws, and the key is derived from the rows it leaves and the table it keeps. -/
theorem sgenDrawsAndDerives : Obligations.SgenDrawsAndDerives := by
  intro s
  refine ⟨_, exec_sgen s, completed_deriveSend _ s, frame_deriveSend sgenRows s, fun r hl hr k hk => ?_,
    fun k hk => ?_⟩
  · rw [ring_deriveSend_sgenRows s hl hr, coeff_drawRow s _ hk]
  · have key := (sendKeyHeld_deriveSend sgenRows s).laneValue hk
    simp (disch := decide) only [(frame_deriveSend sgenRows s).rr] at key
    exact key

/-- Settles O28: SPKDER keeps the rows from which it derives the key. -/
theorem spkderDerivesSenderKey : Obligations.SpkderDerivesSenderKey := by
  intro s
  refine ⟨_, exec_spkder s, completed_deriveSend _ s, frame_deriveSend [] s, fun k hk => ?_⟩
  have key := (sendKeyHeld_deriveSend [] s).laneValue hk
  simp (disch := decide) only [(frame_deriveSend [] s).rr] at key
  exact key

/-- Settles O29: the ciphertext is a sum of two products and RR16. -/
theorem encEncrypts : Obligations.EncEncrypts := by
  intro s
  refine ⟨_, exec_enc s, completed_complete _, frame_of_rr s _ [17] rfl fun r hr => ?_, fun k hk => ?_⟩
  · exact ring_setRing_of_ne s _ (List.ne_of_not_mem_cons hr)
  · rw [ring_complete, ring_disturbTemporaries, ring_setRing_self, ciphertext_eq]
    exact laneValue_mulAddMulAdd _ _ _ _ _ _ hk

/-- Settles O31: DEC thresholds the difference of the ciphertext and what it predicts. -/
theorem decDecrypts : Obligations.DecDecrypts := by
  intro s
  refine ⟨_, rfl, completed_complete _, frame_of_rr s _ [18] rfl fun r hr => ?_,
    fun k hk => ⟨_, laneValue_noisy s s.fa hk, ?_⟩⟩
  · exact ring_setRing_of_ne s _ (List.ne_of_not_mem_cons hr)
  · rw [ring_complete, ring_disturbTemporaries, ring_setRing_self, coeff_threshold _ hk, decideSymbol_eq]

end Machine

end Sys2Proof

/-! ### The noise of a round trip (R184) -/

/-! #### The cross terms cancel, in any commutative ring -/

namespace Sys2Proof.Laws

open Finset

variable {R : Type} [CommRing R]

/-- The outer factors of a triple product may be exchanged (R153). -/
theorem negConv_swap (a b c : ℕ → R) (k : ℕ) : negConv a (negConv b c) k = negConv c (negConv b a) k := by
  have inner : negConv a b = negConv b a := funext (negConv_comm a b)
  rw [← negConv_assoc, negConv_comm, inner]

theorem negConv_sub_right (a b b' : ℕ → R) (k : ℕ) :
    negConv a (fun i => b i - b' i) k = negConv a b k - negConv a b' k := by
  have sum := negConv_add_right a (fun i => b i - b' i) b' k
  simp only [sub_add_cancel] at sum
  exact eq_sub_of_add_eq sum.symm

/-- The coefficient vector `{255: d}`. -/
def lastOnly (d : R) (i : ℕ) : R := if i = 255 then d else 0

/-- `a * d x^255` is `-d a[k+1]` at every index below 255 (R151). -/
theorem negConv_lastOnly (a : ℕ → R) {d : R} {k : ℕ} (h : k < 255 ∨ d = 0) :
    negConv a (lastOnly d) k = -(d * a (k + 1)) := by
  have only : negConv a (lastOnly d) k = negExt a ((k : ℤ) - (255 : ℕ)) * lastOnly d 255 :=
    sum_eq_single_of_mem 255 (mem_range.mpr (by decide)) fun i _ hi => by rw [lastOnly, if_neg hi, mul_zero]
  rw [only, lastOnly, if_pos rfl]
  obtain hk | rfl := h
  · rw [show (k : ℤ) - (255 : ℕ) = ((k + 1 : ℕ) : ℤ) - 256 by omega, negExt_sub, negExt_natCast a (by omega)]
    ring
  · ring

/-- A public key `a b + c d + e` without the part `lost` of its coefficient 255 (R173, R174). -/
def keyVec (a b c d e : ℕ → R) (lost : R) (i : ℕ) : R := negConv a b i + negConv c d i + e i - lastOnly lost i

theorem negConv_keyVec (x a b c d e : ℕ → R) {lost : R} {k : ℕ} (h : k < 255 ∨ lost = 0) :
    negConv x (keyVec a b c d e lost) k =
      negConv x (negConv a b) k + negConv x (negConv c d) k + negConv x e k + lost * x (k + 1) := by
  unfold keyVec
  rw [negConv_sub_right, negConv_add_right, negConv_add_right, negConv_lastOnly x h, sub_neg_eq_add]

/-- The sender's secret times the receiver's key, less the receiver's secret times the sender's key: each product of a
table entry and two secrets occurs once with either sign (R184). -/
theorem cross_terms_cancel (s0 s1 e0 e1 t0 t1 t2 t3 ss0 ss1 se0 se1 : ℕ → R) {d0 d1 g0 g1 : R} {k : ℕ}
    (hd0 : k < 255 ∨ d0 = 0) (hd1 : k < 255 ∨ d1 = 0) (hg0 : k < 255 ∨ g0 = 0) (hg1 : k < 255 ∨ g1 = 0) :
    negConv ss0 (keyVec t0 s0 t1 s1 e0 d0) k + negConv ss1 (keyVec t2 s0 t3 s1 e1 d1) k -
        (negConv s0 (keyVec t0 ss0 t2 ss1 se0 g0) k + negConv s1 (keyVec t1 ss0 t3 ss1 se1 g1) k) =
      negConv ss0 e0 k + negConv ss1 e1 k - negConv s0 se0 k - negConv s1 se1 k +
        d0 * ss0 (k + 1) + d1 * ss1 (k + 1) - g0 * s0 (k + 1) - g1 * s1 (k + 1) := by
  rw [negConv_keyVec ss0 _ _ _ _ _ hd0, negConv_keyVec ss1 _ _ _ _ _ hd1, negConv_keyVec s0 _ _ _ _ _ hg0,
    negConv_keyVec s1 _ _ _ _ _ hg1, negConv_swap ss0 t0 s0, negConv_swap ss0 t1 s1, negConv_swap ss1 t2 s0,
    negConv_swap ss1 t3 s1]
  ring

end Sys2Proof.Laws

/-! #### Rings modulo 3329 -/

namespace Sys2Proof.RingVec

/-- The coefficients modulo 3329. -/
def residue (v : RingVec) (i : Nat) : ZMod 3329 := v.coeff i

theorem cast_eq_of_emod_eq {x y : Int} (h : x % 3329 = y % 3329) : (x : ZMod 3329) = y :=
  (ZMod.intCast_eq_intCast_iff' x y 3329).mpr h

theorem cast_exactProduct (a b : RingVec) {k : Nat} (hk : k < 256) :
    (a.exactProduct b k : ZMod 3329) = Laws.negConv a.residue b.residue k := Laws.cast_negacyclicSum _ _ hk

/-- What `fa = 0` loses of a ring sum: the coefficient 255 that `fa = 1` would give (R144). -/
def lostLast (fa : Bool) (full : RingVec) : Int := if fa then 0 else full.coeff 255

/-- A public key modulo 3329, in both FULLADD settings (R173, R174). -/
theorem residue_mulAddMulAdd (a b c d e : RingVec) (fa : Bool) {i : Nat} (hi : i < 256) :
    (mulAddMulAdd a b c d e fa).residue i = Laws.keyVec a.residue b.residue c.residue d.residue e.residue
      (lostLast fa (mulAddMulAdd a b c d e true) : ZMod 3329) i := by
  have exact_full (fa : Bool) (computed : i < 255 ∨ fa = true) : (mulAddMulAdd a b c d e fa).residue i =
      Laws.negConv a.residue b.residue i + Laws.negConv c.residue d.residue i + e.residue i := by
    have lane := cast_eq_of_emod_eq ((laneValue_mulAddMulAdd a b c d e fa hi).1 computed).2
    rwa [Int.cast_add, Int.cast_add, cast_exactProduct a b hi, cast_exactProduct c d hi] at lane
  unfold Laws.keyVec Laws.lastOnly
  rw [← exact_full true (.inr rfl)]
  cases fa with
  | true => simp [lostLast]
  | false =>
    split
    case isTrue last =>
      subst last
      have zero := (laneValue_mulAddMulAdd a b c d e false hi).2 ⟨rfl, rfl⟩
      simp [residue, lostLast, zero]
    case isFalse inner =>
      rw [exact_full false (.inl (by omega)), exact_full true (.inr rfl), sub_zero]

end Sys2Proof.RingVec

/-! #### What DEC thresholds after a round trip -/

namespace Sys2Proof.Machine

open RingVec

variable {s t : State} {fa : Bool}

/-- RR17 holds the ciphertext of the loaded rows (R180). -/
def CiphertextHeld (fa : Bool) (s : State) : Prop := s.ring 17 = ciphertext s fa

/-- The value whose representative DEC thresholds at index `k` (R184). -/
def roundTripValue (fa : Bool) (s : State) (k : Nat) : Int :=
  (s.ring 16).coeff k +
    ((s.ring 10).exactProduct (s.ring 2) k + (s.ring 11).exactProduct (s.ring 3) k -
      (s.ring 0).exactProduct (s.ring 12) k - (s.ring 1).exactProduct (s.ring 13) k) +
    lostLast fa (pkRecv s true).1 * (s.ring 10).coeff (k + 1) +
    lostLast fa (pkRecv s true).2 * (s.ring 11).coeff (k + 1) -
    lostLast fa (pkSend s true).1 * (s.ring 0).coeff (k + 1) -
    lostLast fa (pkSend s true).2 * (s.ring 1).coeff (k + 1)

theorem RecvKeyHeld.residue (h : RecvKeyHeld fa s) {i : Nat} (hi : i < 256) :
    (s.ring 8).residue i = Laws.keyVec (s.ring 4).residue (s.ring 0).residue (s.ring 5).residue (s.ring 1).residue
      (s.ring 2).residue (lostLast fa (pkRecv s true).1 : ZMod 3329) i ∧
    (s.ring 9).residue i = Laws.keyVec (s.ring 6).residue (s.ring 0).residue (s.ring 7).residue (s.ring 1).residue
      (s.ring 3).residue (lostLast fa (pkRecv s true).2 : ZMod 3329) i := by
  obtain ⟨h8, h9⟩ := Prod.mk.inj (h.trans (pkRecv_eq s fa))
  rw [h8, h9]
  exact ⟨residue_mulAddMulAdd _ _ _ _ _ _ hi, residue_mulAddMulAdd _ _ _ _ _ _ hi⟩

theorem SendKeyHeld.residue (h : SendKeyHeld fa s) {i : Nat} (hi : i < 256) :
    (s.ring 14).residue i = Laws.keyVec (s.ring 4).residue (s.ring 10).residue (s.ring 6).residue (s.ring 11).residue
      (s.ring 12).residue (lostLast fa (pkSend s true).1 : ZMod 3329) i ∧
    (s.ring 15).residue i = Laws.keyVec (s.ring 5).residue (s.ring 10).residue (s.ring 7).residue (s.ring 11).residue
      (s.ring 13).residue (lostLast fa (pkSend s true).2 : ZMod 3329) i := by
  obtain ⟨h14, h15⟩ := Prod.mk.inj (h.trans (pkSend_eq s fa))
  rw [h14, h15]
  exact ⟨residue_mulAddMulAdd _ _ _ _ _ _ hi, residue_mulAddMulAdd _ _ _ _ _ _ hi⟩

/-- With both keys and the ciphertext in place, DEC thresholds the message with the noise of R184. -/
theorem noisy_eq_reduce (hr : RecvKeyHeld fa s) (hs : SendKeyHeld fa s) (hc : CiphertextHeld fa s) {k : Nat}
    (hk : k < 256) (computed : k < 255 ∨ fa = true) : (noisy s fa).coeff k = reduce (roundTripValue fa s k) := by
  have encrypted := ((laneValue_mulAddMulAdd (s.ring 10) (s.ring 8) (s.ring 11) (s.ring 9) (s.ring 16) fa hk).1
    computed).2
  rw [← ciphertext_eq, ← hc] at encrypted
  have decrypted := reduce_of_isReduced ((laneValue_noisy s fa hk).1 computed)
  have none_lost (v : RingVec) : k < 255 ∨ (lostLast fa v : ZMod 3329) = 0 :=
    computed.imp_right fun h => by simp [lostLast, h]
  have key (v : RingVec) {w : RingVec} {f : Nat → ZMod 3329} (hw : ∀ i < 256, w.residue i = f i) :
      (v.exactProduct w k : ZMod 3329) = Laws.negConv v.residue f k :=
    (cast_exactProduct v w hk).trans (Laws.negConv_congr (fun _ _ => rfl) hw k)
  rw [← decrypted]
  refine reduce_congr ((ZMod.intCast_eq_intCast_iff' _ _ 3329).mp ?_)
  rw [Int.cast_sub, cast_eq_of_emod_eq encrypted, roundTripValue]
  push_cast
  rw [key (s.ring 10) fun i hi => (hr.residue hi).1, key (s.ring 11) fun i hi => (hr.residue hi).2,
    key (s.ring 0) fun i hi => (hs.residue hi).1, key (s.ring 1) fun i hi => (hs.residue hi).2,
    cast_exactProduct _ (s.ring 2) hk, cast_exactProduct _ (s.ring 3) hk, cast_exactProduct _ (s.ring 12) hk,
    cast_exactProduct _ (s.ring 13) hk]
  have cancelled := Laws.cross_terms_cancel (s.ring 0).residue (s.ring 1).residue (s.ring 2).residue (s.ring 3).residue
    (s.ring 4).residue (s.ring 5).residue (s.ring 6).residue (s.ring 7).residue (s.ring 10).residue (s.ring 11).residue
    (s.ring 12).residue (s.ring 13).residue (none_lost (pkRecv s true).1) (none_lost (pkRecv s true).2)
    (none_lost (pkSend s true).1) (none_lost (pkSend s true).2)
  simp only [residue] at cancelled ⊢
  linear_combination cancelled

end Sys2Proof.Machine

/-! #### The commands of a round trip -/

namespace Sys2Proof.Machine

open RingVec

variable {s t : State} {fa : Bool} {i : Instr}

/-- The rings that a round trip starts from: the secrets, the noise, the table and the message (R184). -/
def loadedRings : List RegNum := [0, 1, 2, 3, 4, 5, 6, 7, 10, 11, 12, 13, 16]

theorem exec_receiver (hi : i = .kgen ∨ i = .pkder) (h : exec i s = .next t) : RecvKeyHeld s.fa t := by
  obtain rfl | rfl := hi
  · obtain rfl := Host.Outcome.next.inj ((exec_kgen s).symm.trans h)
    exact recvKeyHeld_deriveRecv kgenRows s
  · obtain rfl := Host.Outcome.next.inj ((exec_pkder s).symm.trans h)
    exact recvKeyHeld_deriveRecv [] s

/-- Both sender commands leave the receiver's rows and key. -/
theorem exec_sender (hi : i = .sgen ∨ i = .spkder) (h : exec i s = .next t) :
    SendKeyHeld s.fa t ∧ ∀ r : RegNum, r.val < 10 → t.ring r = s.ring r := by
  obtain rfl | rfl := hi
  · obtain rfl := Host.Outcome.next.inj ((exec_sgen s).symm.trans h)
    exact ⟨sendKeyHeld_deriveSend sgenRows s, fun r hr => (frame_deriveSend sgenRows s).rr r (by revert r; decide)⟩
  · obtain rfl := Host.Outcome.next.inj ((exec_spkder s).symm.trans h)
    exact ⟨sendKeyHeld_deriveSend [] s, fun r hr => (frame_deriveSend [] s).rr r (by revert r; decide)⟩

theorem ciphertext_of_rings (h : ∀ r : RegNum, r.val < 17 → t.ring r = s.ring r) (fa : Bool) :
    ciphertext t fa = ciphertext s fa := by
  simp (disch := decide) only [ciphertext_eq, h]

theorem CiphertextHeld.of_rings (hs : CiphertextHeld fa s) (h : ∀ r : RegNum, r.val < 18 → t.ring r = s.ring r) :
    CiphertextHeld fa t := by
  rw [CiphertextHeld, ciphertext_of_rings fun r hr => h r (by omega), h 17 (by decide), hs]

theorem exec_enc_ciphertextHeld (h : exec .enc s = .next t) :
    CiphertextHeld s.fa t ∧ ∀ r : RegNum, r ≠ 17 → t.ring r = s.ring r := by
  obtain rfl := Host.Outcome.next.inj ((exec_enc s).symm.trans h)
  have kept (r : RegNum) (hr : r ≠ 17) := ring_setRing_of_ne s (ciphertext s s.fa) hr
  have same := ciphertext_of_rings (fun r hr => kept r (Fin.ne_of_lt hr)) s.fa
  exact ⟨(ring_setRing_self ..).trans same.symm, kept⟩

theorem roundTripValue_of_rings (h : ∀ r, r ∈ loadedRings → t.ring r = s.ring r) (fa : Bool) :
    roundTripValue fa t = roundTripValue fa s := by
  funext k
  simp (disch := decide) only [roundTripValue, pkRecv, pkSend, h]

theorem roundTripValue_true (s : State) (k : Nat) : roundTripValue true s k = (s.ring 16).coeff k +
    ((s.ring 10).exactProduct (s.ring 2) k + (s.ring 11).exactProduct (s.ring 3) k -
      (s.ring 0).exactProduct (s.ring 12) k - (s.ring 1).exactProduct (s.ring 13) k) := by
  simp [roundTripValue, lostLast]

theorem roundTripValue_false (s : State) (k : Nat) : roundTripValue false s k = (s.ring 16).coeff k +
    ((s.ring 10).exactProduct (s.ring 2) k + (s.ring 11).exactProduct (s.ring 3) k -
      (s.ring 0).exactProduct (s.ring 12) k - (s.ring 1).exactProduct (s.ring 13) k) +
    (pkRecv s true).1.coeff 255 * (s.ring 10).coeff (k + 1) +
    (pkRecv s true).2.coeff 255 * (s.ring 11).coeff (k + 1) -
    (pkSend s true).1.coeff 255 * (s.ring 0).coeff (k + 1) -
    (pkSend s true).2.coeff 255 * (s.ring 1).coeff (k + 1) := by
  simp [roundTripValue, lostLast]

theorem noisy_last (s : State) : (noisy s false).coeff 255 = 0 := (laneValue_noisy s false (by decide)).2 ⟨rfl, rfl⟩

/-- A completion keeps the latched `fa` (R123). -/
theorem exec_fa (hi : submissionError i = none) (h : exec i s = .next t) : t.fa = s.fa := by
  obtain ⟨_, _, _, _, _, rfl⟩ := exec_eq hi h
  rfl

/-- A receiver command and then a sender command leave both keys, if the receiver's rows are kept in between. -/
theorem keysHeld {j : Instr} {u u' : State} (hi : i = .kgen ∨ i = .pkder) (hj : j = .sgen ∨ j = .spkder)
    (h1 : exec i s = .next t) (kept : ∀ r : RegNum, r.val < 10 → u.ring r = t.ring r) (hfa : u.fa = s.fa)
    (h2 : exec j u = .next u') : RecvKeyHeld s.fa u' ∧ SendKeyHeld s.fa u' := by
  obtain ⟨sender, passed⟩ := exec_sender hj h2
  exact ⟨((exec_receiver hi h1).of_rings kept).of_rings passed, hfa ▸ sender⟩

/-- After ENC, and any change that keeps RR0 to RR17, DEC thresholds the noise of the rows that ENC found. -/
theorem noisy_after_enc {u : State} (receiver : RecvKeyHeld s.fa s) (sender : SendKeyHeld s.fa s)
    (h : exec .enc s = .next t) (kept : ∀ r : RegNum, r.val < 18 → u.ring r = t.ring r) {k : Nat} (hk : k < 256)
    (computed : k < 255 ∨ s.fa = true) : (noisy u s.fa).coeff k = reduce (roundTripValue s.fa s k) := by
  obtain ⟨encrypted, passed⟩ := exec_enc_ciphertextHeld h
  have low (r : RegNum) (hr : r.val < 17) : u.ring r = s.ring r :=
    (kept r (Nat.lt_succ_of_lt hr)).trans (passed r (Fin.ne_of_lt hr))
  have value : roundTripValue s.fa u = roundTripValue s.fa s :=
    roundTripValue_of_rings (fun r hr => low r (by revert r; decide)) s.fa
  rw [← value]
  exact noisy_eq_reduce (receiver.of_rings fun r hr => low r (by omega)) (sender.of_rings fun r hr => low r (by omega))
    (encrypted.of_rings kept) hk computed

/-- Settles O58: the keys are held before ENC, whichever commands derived them. -/
theorem roundTripNoiseOfAnyKeys : Obligations.RoundTripNoiseOfAnyKeys := by
  intro i j s t1 u1 t2 u2 t3 u3 fa hi hj hs hu1 hu2 _ h1 k1 h2 k2 h3 k3
  subst hu2
  obtain ⟨receiver, sender⟩ := keysHeld hi hj h1 k1 (hu1.trans hs.symm) h2
  rw [hs] at receiver sender
  have value {k : Nat} (hk : k < 256) := noisy_after_enc (receiver.of_rings fun r hr => k2 r (by omega))
    (sender.of_rings k2) h3 k3 hk
  refine ⟨fun full k hk => ?_, fun legacy => ⟨?_, fun k hk => ?_⟩⟩
  · rw [value hk (.inr full), full, roundTripValue_true]
  · rw [legacy, noisy_last]
  · rw [value (by omega) (.inl hk), legacy, roundTripValue_false]

/-- PKDER, SPKDER and ENC in turn write derived rings only, so the noise is that of the first state's rows. -/
theorem noisy_after_loaded {t1 t2 t3 : State} (h1 : exec .pkder s = .next t1) (h2 : exec .spkder t1 = .next t2)
    (h3 : exec .enc t2 = .next t3) : t3.fa = s.fa ∧ ∀ k < 256, (k < 255 ∨ s.fa = true) →
      (noisy t3 s.fa).coeff k = reduce (roundTripValue s.fa s k) := by
  have fa1 : t1.fa = s.fa := exec_fa rfl h1
  have fa2 : t2.fa = s.fa := (exec_fa rfl h2).trans fa1
  obtain ⟨receiver, sender⟩ := keysHeld (.inr rfl) (.inr rfl) h1 (fun _ _ => rfl) fa1 h2
  obtain rfl := Host.Outcome.next.inj ((exec_pkder s).symm.trans h1)
  obtain rfl := Host.Outcome.next.inj ((exec_spkder _).symm.trans h2)
  have loaded (r : RegNum) (hr : r ∈ loadedRings) : (deriveSend [] (deriveRecv [] s)).ring r = s.ring r :=
    ((frame_deriveSend [] _).rr r (by revert r; decide)).trans ((frame_deriveRecv [] s).rr r (by revert r; decide))
  refine ⟨(exec_fa rfl h3).trans fa2, fun k hk computed => ?_⟩
  rw [← roundTripValue_of_rings loaded]
  rw [← fa2] at receiver sender computed ⊢
  exact noisy_after_enc receiver sender h3 (fun _ _ => rfl) hk computed

/-- Settles O32: with `fa = 1` no coefficient is lost. -/
theorem roundTripNoiseFullAdd : Obligations.RoundTripNoiseFullAdd := by
  intro s t1 t2 t3 full h1 h2 h3 k hk
  obtain ⟨hfa, value⟩ := noisy_after_loaded h1 h2 h3
  rw [hfa, value k hk (.inr full), full, roundTripValue_true]

/-- Settles O33: with `fa = 0` each key loses its coefficient 255. -/
theorem roundTripNoiseLegacy : Obligations.RoundTripNoiseLegacy := by
  intro s t1 t2 t3 legacy h1 h2 h3
  obtain ⟨hfa, value⟩ := noisy_after_loaded h1 h2 h3
  refine ⟨by rw [hfa, legacy, noisy_last], fun k hk => ?_⟩
  rw [hfa, value k (by omega) (.inl hk), legacy, roundTripValue_false]

end Sys2Proof.Machine

/-! ### The message codec (R200 to R204) -/

namespace Sys2Proof.RingVec

variable (v : RingVec) {p j : Nat}

theorem isTerminator_eq_true {b : Byte} : isTerminator b = true ↔ b = 0x00 ∨ b = 0xFF := by simp [isTerminator]

theorem isTerminator_eq_false {b : Byte} : isTerminator b = false ↔ b ≠ 0x00 ∧ b ≠ 0xFF := by simp [isTerminator]

/-! #### The bits of a byte (R202) -/

/-- The sum of R202 is the number with the binary digits `b[8p]` to `b[8p + 7]`, the first one on top. -/
theorem sum_bitAt_eq_ofBits (p : Nat) : ((List.range 8).map fun t => v.bitAt (8 * p + t) * 2 ^ (7 - t)).sum =
    Nat.ofBits fun i : Fin 8 => decide (v.coeff (8 * p + (7 - i)) = -1664) := by
  have digit (i : Nat) : v.bitAt i = (decide (v.coeff i = -1664)).toNat := by
    rw [bitAt, Bool.toNat, Bool.cond_decide]
  simp [digit, List.range_succ, Nat.ofBits, Fin.foldr_succ]
  omega

theorem getLsbD_byteAt (p : Nat) (hj : j < 8) :
    (v.byteAt p).getLsbD (7 - j) = decide (v.coeff (8 * p + j) = -1664) := by
  have hi : 7 - j < 8 := by omega
  have source : 7 - (7 - j) = j := by omega
  rw [byteAt, BitVec.getLsbD_ofNat, sum_bitAt_eq_ofBits, Nat.testBit_ofBits_lt _ _ hi]
  simp [hi, source]

/-! #### The decoded bytes (R202) -/

theorem getElem_toBytes (hp : p < v.toBytes.length) : v.toBytes[p] = v.byteAt p := by
  have before : v.toBytes <+: (List.range 32).map v.byteAt := List.takeWhile_prefix _
  rw [before.getElem hp, List.getElem_map, List.getElem_range]

theorem isTerminator_byteAt_of_lt (hp : p < v.toBytes.length) : isTerminator (v.byteAt p) = false := by
  have passed := List.mem_takeWhile_imp (List.getElem_mem hp)
  rw [← getElem_toBytes v hp]
  simpa using passed

/-- Decoding stops before the capacity at a terminator only. -/
theorem isTerminator_byteAt_length (h : v.toBytes.length < 32) : isTerminator (v.byteAt v.toBytes.length) = true := by
  have stop : v.toBytes.length = ((List.range 32).map v.byteAt).findIdx isTerminator := by
    rw [toBytes, List.takeWhile_eq_take_findIdx_not, List.length_take_of_le List.findIdx_le_length]
    simp only [Bool.not_not]
  have found := List.findIdx_getElem (p := isTerminator) (xs := (List.range 32).map v.byteAt)
    (w := by rwa [← stop, List.length_map, List.length_range])
  rwa [List.getElem_map, List.getElem_range, ← stop] at found

/-! #### Decoding an encoded message (R204) -/

theorem coeff_ofBytes_byte (s : Nat → Byte) (len : Nat) (hp : p < 32) (hj : j < 8) :
    (ofBytes s len).coeff (8 * p + j) = if p < len ∧ (s p).getLsbD (7 - j) = true then -1664 else 0 := by
  rw [coeff_ofBytes s len (by omega), show (8 * p + j) / 8 = p by omega, show (8 * p + j) % 8 = j by omega]

theorem byteAt_ofBytes (s : Nat → Byte) (len : Nat) (hp : p < 32) :
    (ofBytes s len).byteAt p = if p < len then s p else 0x00 := by
  apply BitVec.eq_of_getLsbD_eq
  intro i hi
  have bit := getLsbD_byteAt (ofBytes s len) p (j := 7 - i) (by omega)
  rw [coeff_ofBytes_byte s len hp (by omega), show 7 - (7 - i) = i by omega] at bit
  rw [bit]
  by_cases hlen : p < len <;> simp [hlen]

/-- The bytes of an encoded message are the message, filled up with 0x00. -/
theorem map_byteAt_ofBytes {bytes : List Byte} (h : bytes.length ≤ 32) :
    (List.range 32).map (ofBytes (bytes.getD · 0x00) bytes.length).byteAt =
      bytes ++ List.replicate (32 - bytes.length) 0x00 := by
  apply List.ext_getElem
  · simp [h]
  · intro p hp _
    rw [List.getElem_map, List.getElem_range, byteAt_ofBytes _ _ (by simpa using hp), List.getElem_append]
    by_cases hlen : p < bytes.length <;> simp [hlen]

/-- Settles O37: what fills up an encoded message are terminators. -/
theorem codecRoundTrip : Obligations.CodecRoundTrip := by
  intro bytes h
  have filler : (List.replicate (32 - bytes.length) (0x00 : Byte)).takeWhile (fun b => !isTerminator b) = [] := by
    rw [List.takeWhile_replicate, if_neg (by decide)]
  have decoded : (ofBytes (bytes.getD · 0x00) bytes.length).toBytes = bytes.takeWhile fun b => !isTerminator b := by
    rw [toBytes, map_byteAt_ofBytes h, List.takeWhile_append, filler, List.append_nil]
    split
    case isTrue whole => exact ((List.takeWhile_prefix _).eq_of_length whole).symm
    case isFalse => rfl
  refine decoded.trans (congrArg (List.takeWhile · bytes) (funext fun b => ?_))
  rw [Bool.eq_iff_iff, Bool.not_eq_true', isTerminator_eq_false, decide_eq_true_iff]

end Sys2Proof.RingVec

namespace Sys2Proof.Machine

open RingVec

/-- Settles O35: what stands at `8p + j` comes from byte `p`, bit `7 - j`. -/
theorem mencEncodesMessage : Obligations.MencEncodesMessage := by
  intro s rd len
  refine ⟨fun fits => ?_, fun tooLong => exec_menc_tooLong rd (decide_eq_true tooLong) s⟩
  refine ⟨_, exec_menc_fits rd (decide_eq_false (Nat.not_lt.mpr fits)) s, completed_complete _, frame_setRing s rd _,
    fun p hp j hj => ?_⟩
  rw [ring_complete, ring_setRing_self]
  exact coeff_ofBytes_byte s.msgByte len hp hj

/-- Writing MSG and DEC_LEN and completing leaves everything else (R203). -/
theorem frame_setMessage (s : State) (out : List Byte) :
    Frame [] false true false s (complete (s.setMessage out)) where
  rr := fun _ _ => rfl
  ctrl := ⟨rfl, rfl⟩
  err := ⟨rfl, rfl⟩
  scalarIn := rfl
  scalarOut := fun _ => rfl
  winSel := rfl
  msg := nofun
  latched := ⟨rfl, rfl, rfl⟩
  temps := fun _ => rfl
  inputs := ⟨rfl, rfl, rfl⟩
  readData := rfl

theorem msgByte_complete_setMessage (s : State) (out : List Byte) {p : Nat} (hp : p < 32) :
    (complete (s.setMessage out)).msgByte p = out.getD p 0x00 := by
  rw [State.msgByte, dif_pos hp]
  exact getElem_messageOf _ hp

/-- The number of at most 32 bytes fits LEN (R38). -/
theorem toNat_decLen_setMessage (s : State) {out : List Byte} (h : out.length ≤ 32) :
    (s.setMessage out).decLen.toNat = out.length := by
  rw [State.setMessage_decLen, BitVec.toNat_ofNat, Nat.mod_eq_of_lt (by omega)]

/-- Settles O36: MDEC writes the bytes of the source ring before the first terminator. -/
theorem mdecDecodesMessage : Obligations.MdecDecodesMessage := by
  intro s rs1
  have capacity := length_toBytes (s.ring rs1)
  refine ⟨_, (s.ring rs1).byteAt, exec_mdec s rs1, completed_complete _, frame_setMessage s _,
    fun p _ j hj => getLsbD_byteAt _ p hj, ?_⟩
  rw [complete_decLen, toNat_decLen_setMessage s capacity]
  refine ⟨capacity, fun p hp => ⟨?_, ?_⟩, fun h => ?_, fun p hp beyond => ?_⟩
  · rw [msgByte_complete_setMessage s _ (by omega), List.getD_eq_getElem _ _ hp, getElem_toBytes]
  · exact isTerminator_eq_false.mp (isTerminator_byteAt_of_lt _ hp)
  · exact isTerminator_eq_true.mp (isTerminator_byteAt_length _ h)
  · rw [msgByte_complete_setMessage s _ hp, List.getD_eq_default _ _ beyond]

end Sys2Proof.Machine

/-! ### Errors and the interrupt (R222, R223, R226) -/

namespace Sys2Proof.Machine

variable {s t : State}

/-! #### Recording an error (R223) -/

theorem raiseError_of_clear (h : s.err = false) (code : ErrCode) :
    raiseError code s = { s with err := true, errcode := code } := by
  rw [raiseError, h, if_neg Bool.false_ne_true]

theorem raiseError_of_pending (h : s.err = true) (code : ErrCode) : raiseError code s = s := by
  rw [raiseError, if_pos h, ← h]

/-- Settles O47: what `raiseError` does depends on ERR, and bit 2 of an acknowledgement clears ERR and ERRCODE. -/
theorem firstErrorIsKept : Obligations.FirstErrorIsKept := by
  intro s code
  refine ⟨fun clear => raiseError_of_clear clear code, fun pending => raiseError_of_pending pending code,
    fun v acknowledged => ⟨?_, ?_⟩⟩
  · rw [State.writeStatus_err, acknowledged, Bool.not_true, Bool.and_false]
  · rw [State.writeStatus_errcode, if_pos acknowledged]

/-! #### The engine's own steps raise no error (R222) -/

/-- Accepting a code touches the entropy port and the draws only (R170). -/
theorem takeCode_keeps_err (s : State) : (takeCode s).err = s.err ∧ (takeCode s).errcode = s.errcode := by
  obtain ⟨_, h⟩ | ⟨_, _, _, _, h⟩ | ⟨_, _, _, _, _, h⟩ := takeCode_cases s <;> rw [h] <;> exact ⟨rfl, rfl⟩

/-- A command that submission accepts has nothing left to refuse at its completion (R120, R123). -/
theorem exec_keeps_err {i : Instr} (accepted : submissionError i = none) (h : exec i s = .next t) :
    t.err = s.err ∧ t.errcode = s.errcode := by
  obtain ⟨_, _, _, _, _, rfl⟩ := exec_eq accepted h
  exact ⟨rfl, rfl⟩

/-- Settles O11: an idle engine does nothing; a busy one waits for a code, takes one, or completes an accepted command. -/
theorem engineStepsRaiseNoError : Obligations.EngineStepsRaiseNoError := by
  intro s hs hr
  cases hp : s.phase with
  | idle => exact ⟨s, engineTurn_idle hr hp, rfl, rfl⟩
  | busy =>
    obtain ⟨_, i, ⟨w, latched, decodes, accepted⟩, _⟩ := hs.busy hp
    obtain hn | hn := Nat.eq_zero_or_pos s.need
    · obtain ⟨t, ht⟩ := exec_next i s
      exact ⟨t, (engineTurn_complete hr hp hn latched decodes).trans ht, exec_keeps_err accepted ht⟩
    · exact ⟨takeCode s, engineTurn_draw hr hp hn, takeCode_keeps_err s⟩

/-! #### The interrupt (R226) -/

theorem irq_eq_true_iff : s.irq = true ↔ s.irqen = true ∧ (s.done = true ∨ s.err = true) := by
  rw [State.irq, Bool.and_eq_true, Bool.or_eq_true]

theorem irq_of_done (h : s.done = true) : s.irq = s.irqen := by
  rw [State.irq, h, Bool.true_or, Bool.and_true]

theorem irq_of_nothing_pending (hd : s.done = false) (he : s.err = false) : s.irq = false := by
  rw [State.irq, hd, he, Bool.or_self, Bool.and_false]

/-- IRQEN is the host's: a command leaves it, accepted or refused at its completion (R32, R123). -/
theorem exec_keeps_irqen {i : Instr} (h : exec i s = .next t) : t.irqen = s.irqen := by
  cases hc : submissionError i with
  | none =>
    obtain ⟨_, _, _, _, _, rfl⟩ := exec_eq hc h
    rfl
  | some code =>
    obtain rfl := Host.Outcome.next.inj ((exec_eq_refuseLatched i s hc).symm.trans h)
    exact refuseLatched_irqen s code

/-- Settles O48: a completion sets DONE and keeps IRQEN, and the word 0x6 clears DONE and ERR. -/
theorem irqFollowsPendingBits : Obligations.IrqFollowsPendingBits := by
  refine ⟨fun s => irq_eq_true_iff, fun i s t h => ?_, fun s => ?_, rfl⟩
  · rw [irq_of_done (exec_completed h).done, exec_keeps_irqen h]
  · have bits : (0x6 : Word).getLsbD 1 = true ∧ (0x6 : Word).getLsbD 2 = true := by decide
    apply irq_of_nothing_pending
    · rw [State.writeStatus_done, bits.1, Bool.not_true, Bool.and_false]
    · rw [State.writeStatus_err, bits.2, Bool.not_true, Bool.and_false]

end Sys2Proof.Machine

/-! ### The entropy stall (R170, R258) -/

namespace Sys2Proof.Machine

variable {s : State} {need : Nat} {rr : Vector RingVec 32}

/-- A command in flight still needs `need > 0` draws, no code but the rejected 0b10 is on offer, no listed turn asserts
`rst`, and the ring registers hold `rr`: what every step of a stalled engine keeps (R258). -/
structure State.Stalled (need : Nat) (rr : Vector RingVec 32) (s : State) : Prop where
  released : s.rst = false
  noReset  : Turn.rst true ∉ s.turns
  busy     : s.phase = .busy
  needs    : s.need = need
  pos      : 0 < need
  rejected : ∀ c ∈ s.entropy, c = 0b10
  rings    : s.rr = rr

theorem State.Stalled.afterTurn (hs : s.Stalled need rr) : (afterTurn s).Stalled need rr :=
  { hs with noReset := fun h => hs.noReset (List.mem_of_mem_tail h) }

/-- No transaction reaches what a stall consists of: the data group is locked and a submission is refused (R74, R120). -/
theorem State.Stalled.runTransaction (hs : s.Stalled need rr) (tx : Transaction) :
    (runTransaction tx s).Stalled need rr := by
  obtain ⟨_, _, _, _, _, _, h⟩ := runTransaction_busy hs.released hs.busy tx
  rw [h]
  exact { hs with }

/-- A code taken in a stall is 0b10, which yields no draw (R170). -/
theorem State.Stalled.takeCode (hs : s.Stalled need rr) : (takeCode s).Stalled need rr := by
  obtain ⟨_, h⟩ | ⟨c, cs, he, _, h⟩ | ⟨c, cs, v, he, usable, _⟩ := takeCode_cases s
  · rw [h]
    exact hs
  · rw [h]
    exact { hs with rejected := fun c' hc' => hs.rejected c' (he ▸ List.mem_cons_of_mem c hc') }
  · have unusable := (drawOfCode_eq_none c).mpr (hs.rejected c (he ▸ List.mem_cons_self))
    exact nomatch unusable.symm.trans usable

/-- The turn taken is a listed one or the engine's. -/
theorem turnOf_ne_rst {level : Bool} (h : Turn.rst level ∉ s.turns) : turnOf s ≠ .rst level := by
  rw [turnOf]
  cases hturns : s.turns with
  | nil => exact nofun
  | cons turn ts =>
    rw [hturns] at h
    exact fun e => h (e ▸ List.mem_cons_self)

/-- Whoever has the turn, the stall goes on: needing a draw, the engine never reaches its completion. -/
theorem State.Stalled.step (hs : s.Stalled need rr) : ∃ t, step s = .next t ∧ t.Stalled need rr := by
  have later := hs.afterTurn
  rw [Machine.step]
  cases hturn : turnOf s with
  | host tx => exact ⟨_, rfl, later.runTransaction tx⟩
  | engine => exact ⟨_, engineTurn_draw later.released later.busy (later.needs ▸ later.pos), later.takeCode⟩
  | rst level =>
    cases level with
    | true => exact absurd hturn (turnOf_ne_rst hs.noReset)
    | false => exact ⟨_, by rw [runTurn, setRst_idle later.released], later⟩

theorem State.Stalled.run (n : Nat) (hs : s.Stalled need rr) : ∃ t, core.run n s = .next t ∧ t.Stalled need rr := by
  induction n generalizing s with
  | zero => exact ⟨s, run_zero s, hs⟩
  | succ n ih =>
    obtain ⟨u, hu, stalled⟩ := hs.step
    rw [run_succ n hu]
    exact ih stalled

/-- Settles O14: the stall is an invariant of the run, and it fixes the need and the ring registers. -/
theorem entropyStallNeverCompletes : Obligations.EntropyStallNeverCompletes := by
  intro s n released busy pos rejected noReset
  obtain ⟨t, ht, stalled⟩ := State.Stalled.run n
    { released, noReset, busy, pos, rejected, needs := rfl, rings := rfl }
  exact ⟨t, ht, stalled.busy, stalled.needs, stalled.rings⟩

end Sys2Proof.Machine

/-! ### Reset (R250, R251) -/

namespace Sys2Proof.Machine

variable {s : State} {ts : List Turn}

theorem step_rst_assert (ht : s.turns = .rst true :: ts) :
    step s = .next { applyReset s with turns := ts, rst := true } := step_rst ht

theorem step_rst_release (ht : s.turns = .rst false :: ts) (hr : s.rst = true) :
    step s = .next { applyReset s with turns := ts, rst := false } := by
  rw [step_rst ht, setRst_release (s := { s with turns := ts }) hr]
  rfl

theorem step_engine_rst (ht : s.turns = .engine :: ts) (hr : s.rst = true) :
    step s = .next { applyReset s with turns := ts } := by
  have hturn : s.turns.head? = some .engine := by rw [ht, List.head?_cons]
  rw [step_engine (.inr hturn), ht, List.tail_cons, engineTurn_rst (s := { s with turns := ts }) hr]
  rfl

/-- While `rst` is asserted, what reset leaves is the reset values with `rst` still asserted (R250). -/
theorem applyReset_held (hr : s.rst = true) : applyReset s = { State.reset with
    tempGen := s.tempGen + 1, rst := true, entropy := s.entropy, turns := s.turns, readData := s.readData } := by
  rw [applyReset, hr]

/-- Only word index 0 addresses ID (R30, R64). -/
theorem hostReg_eq_id_iff {off : Offset} : hostReg off = .id ↔ off.toNat / 4 = 0 :=
  ⟨fun h => Decidable.of_not_not fun hne => hostReg_ne_id hne h, hostReg_id⟩

/-- Settles O50: each kind of turn applies reset, and the inputs and the last answer on the bus stay. -/
theorem resetAbortsAndHolds : Obligations.ResetAbortsAndHolds := by
  refine fun s ts => ⟨fun ht => ⟨_, step_rst_assert ht⟩, fun hr =>
    ⟨fun ht => ⟨_, step_rst_release ht hr⟩, fun ht => ⟨s.tempGen + 1, ?_⟩, fun off v ht => ⟨s.tempGen + 1, ?_⟩,
      fun off ht => ⟨s.tempGen + 1, ?_⟩⟩⟩
  · rw [step_engine_rst ht hr, applyReset_held hr]
  · rw [step_write_rst ht hr, applyReset_held hr]
  · simp only [step_read_rst ht hr, applyReset_held hr, hostReg_eq_id_iff]

end Sys2Proof.Machine
